-- ==== Sys2Proof/Word.lean ====
section
/-! DEFINITION. The bit vectors of the block: command words, bytes, tick counts, group indices and device addresses. -/

namespace Sys2Proof

/-- A command word (R70). -/
abbrev Word := BitVec 32

/-- A level, a device register offset or a data byte (R10, R12). -/
abbrev Byte := BitVec 8

/-- A tick count 0..4095, also a corrected count and a ROM entry (R7, R12). -/
abbrev Tick := BitVec 12

/-- The GRP field of a command word, 0..15 (R71). -/
abbrev GroupIndex := BitVec 4

/-- A 7-bit bus device address (R6). -/
abbrev DevAddr := BitVec 7

end Sys2Proof
end

