-- ==== Sys2Proof/Config.lean ====
section
/-! DEFINITION. The instance parameters of the block (R6) with the values R6 and R112 give for this hardware, and
the one free value of the spec. -/

namespace Sys2Proof

/-- The parameters an instance is built with; no command changes them (R6, R20). -/
structure Params where
  /-- `DEV_ADDR` -/
  devAddr : DevAddr
  /-- `N`, the number of output groups -/
  groups : Nat
  /-- `W`, the channels of every group -/
  channels : Nat
  /-- `PHASE[0..N-1]` -/
  phase : List Tick
  /-- `MODE1_INIT` -/
  mode1Init : Byte
  /-- `MODE2_INIT` -/
  mode2Init : Byte
  deriving DecidableEq, Repr

/-- `PHASE[g] = floor(4096 * g / N)`, the phase table of an instance that configures no other (R112). -/
def defaultPhase (n : Nat) : List Tick :=
  (List.range n).map fun g => BitVec.ofNat 12 (4096 * g / n)

/-- The instance of this hardware: every parameter at the default of R6. -/
def Params.default : Params where
  devAddr := 0x40
  groups := 5
  channels := 3
  phase := defaultPhase 5
  mode1Init := 0x20
  mode2Init := 0x04

/-- The unspecified 36-bit value the hardware returns at the `n`-th host read of an unwritten RESULT (R26): a free
value, nothing constrains it. Log 12. -/
opaque Config.unspecifiedResult : Nat → BitVec 36

end Sys2Proof
end

