-- ==== Sys2Proof/Syntax.lean ====
section
/-! DEFINITION. The seven commands of the block, one constructor per row of the opcode table (R73). -/

namespace Sys2Proof

/-- A command with its operands (R71): every operand is a plain unsigned field of the word. -/
inductive Instr where
  | init
  | setallGrey (level : Byte)
  | setallRgb (red green blue : Byte)
  | setgrpGrey (group : GroupIndex) (level : Byte)
  | setgrpRgb (group : GroupIndex) (red green blue : Byte)
  | correct (level : Byte)
  | correctRgb (red green blue : Byte)
  deriving DecidableEq, Repr

end Sys2Proof
end

