-- ==== Sys2Proof/WellFormed.lean ====
section
/-! DEFINITION. Which instances are legal (R6, R111) and which commands an instance takes (R76). -/

namespace Sys2Proof

/-- `PHASE[g] < PHASE[g+1]` for every neighbouring pair (R111). -/
def risingTicks : List Tick → Bool
  | a :: b :: rest => decide (a < b) && risingTicks (b :: rest)
  | _ => true

/-- The "legal values" column of R6 together with R111: an instance that breaks it has no meaning. -/
def Params.wf (p : Params) : Bool :=
  decide (1 ≤ p.groups)
    && decide (p.channels = 1 ∨ p.channels = 3)
    && decide (p.groups * p.channels ≤ 16)
    && decide (p.phase.length = p.groups)
    && risingTicks p.phase

/-- An RGB bus command needs three channels a group (R76). -/
def Instr.shapeOk (p : Params) : Instr → Bool
  | .init => true
  | .setallGrey _ => true
  | .setallRgb _ _ _ => decide (p.channels ≠ 1)
  | .setgrpGrey _ _ => true
  | .setgrpRgb _ _ _ _ => decide (p.channels ≠ 1)
  | .correct _ => true
  | .correctRgb _ _ _ => true

/-- A SETGRP command needs a group of the instance (R76). -/
def Instr.groupOk (p : Params) : Instr → Bool
  | .init => true
  | .setallGrey _ => true
  | .setallRgb _ _ _ => true
  | .setgrpGrey group _ => decide (group.toNat < p.groups)
  | .setgrpRgb group _ _ _ => decide (group.toNat < p.groups)
  | .correct _ => true
  | .correctRgb _ _ _ => true

/-- The instance takes this command (R76). -/
def Instr.wf (p : Params) (i : Instr) : Bool :=
  i.shapeOk p && i.groupOk p

end Sys2Proof
end

