-- ==== Sys2Proof/Machine/State.lean ====
section
/-! DEFINITION. The state of the block (R20) as plain data, with the outside world it meets: the offered word,
the agenda of outside events, the observation log (R11) and the device register space (R50, R57). -/

namespace Sys2Proof.Machine

/-- What the block offers the transport (R9, R27). -/
inductive Token where
  /-- `BEGIN(a)` -/
  | beginTxn (addr : DevAddr)
  /-- `BYTE(b)` -/
  | byte (value : Byte)
  /-- `END` -/
  | endTxn
  deriving DecidableEq, Repr

/-- A written RESULT register (R26). -/
structure LookupResult where
  res0 : Tick
  res1 : Tick
  res2 : Tick
  deriving DecidableEq, Repr

/-- The registers a host can read (R21). -/
inductive HostReg where
  | status
  | result
  deriving DecidableEq, Repr

/-- Something the outside world does: the steps of R30, the offers of R23, the reset of R180 and the
device's own loss of power of R184 (log 2). -/
inductive Event where
  /-- the host presents a command word (R23) -/
  | present (w : Word)
  /-- the host withdraws the word it presents (R23) -/
  | withdraw
  /-- the command interface's turn: AcceptCommand if its precondition holds (R30) -/
  | accept
  /-- the transport's turn: TransportAccept if its precondition holds (R30) -/
  | transportAccept
  /-- HostRead (R30) -/
  | read (r : HostReg)
  /-- reset of the block (R180) -/
  | reset
  /-- the device is reset or loses power on its own (R184) -/
  | deviceReset
  deriving DecidableEq, Repr

/-- What is observed of a run (R11), with the mark R182 asks for. -/
inductive Observation where
  /-- the transport accepted this token -/
  | token (t : Token)
  /-- a reset cut the transaction whose accepted tokens stand before this mark (R182) -/
  | unterminated
  /-- the host read STATUS -/
  | status (v : BitVec 8)
  /-- the host read RESULT -/
  | result (v : BitVec 36)
  /-- the host read RESULT while it was unwritten: the fault that R26 and U1 have a model record; the value is free
  (log 12) -/
  | unwrittenResult (v : BitVec 36)
  deriving DecidableEq, Repr

/-- Bytes by address: addresses strictly rising; an address not listed has no known value (log 9). -/
abbrev Memory := List Host.Cell

/-- Where the device stands in the stream of transactions (R10, R57). -/
inductive BusPhase where
  /-- between transactions -/
  | idle
  /-- in a transaction for another address -/
  | ignored
  /-- addressed, the start register not yet received -/
  | addressed
  /-- the data bytes received so far, the first for register `start` -/
  | data (start : Byte) (bytes : List Byte)
  deriving DecidableEq, Repr

/-- The device register space as R57 reads the token stream. Not state of the block (R20, R169): log 8. -/
structure Device where
  regs : Memory
  bus : BusPhase
  deriving DecidableEq, Repr

/-- Everything the spec gives the machine. -/
structure State where
  /-- the instance parameters (R6, R20): constant, log 1 -/
  params : Params
  /-- `STATUS.ERR` (R24, R25) -/
  err : Bool
  /-- `STATUS.CAUSE` (R24, R25) -/
  cause : BitVec 4
  /-- `RESULT`; `none` is the register's own value *unwritten* (R20, R26): log 12 -/
  result : Option LookupResult
  /-- `PENDING` (R29) -/
  pending : List Token
  /-- the word on the command interface `CMD`, offered and not accepted (R21, R23): log 4 -/
  held : Option Word
  /-- what the outside world does next, oldest first: log 2 -/
  agenda : List Event
  /-- whether the transport goes on accepting once the agenda is used up (R164, R190): log 3 -/
  transportFair : Bool
  /-- the observation so far, oldest first (R11): log 7 -/
  log : List Observation
  /-- the device register space (R50, R57): log 8 -/
  device : Device
  /-- how many free values the host's reads of an unwritten RESULT have taken: the model's own counter, log 12 -/
  freeReads : Nat
  deriving DecidableEq, Repr

/-- Why a run of the machine stops. -/
inductive Fault where
  /-- Raised when the agenda is used up, a token is pending and the transport accepts none any more: the
  block is stuck with BUSY = 1 (R164). Safe: no step of the hardware is left out. -/
  | transportNeverAccepts
  deriving DecidableEq, Repr

/-- What the model gives no meaning. -/
inductive Refusal where
  /-- Raised by an arm of `exec` whose command has no meaning yet; no arm does. Safe. -/
  | notModelled (mnemonic : String)
  /-- Raised by `step` and by every meaning in an instance whose parameters break R6 or R111. Safe: such an
  instance "has no meaning". -/
  | illFormedInstance
  deriving DecidableEq, Repr

/-- A device no register of which is known, between transactions (DESIGN CHOICE, log 19). -/
def Device.unknown : Device where
  regs := []
  bus := .idle

/-- The block right after reset (R32, R180), in the instance of this hardware (R6), with no word offered,
nothing on the agenda and nothing observed (logs 1 to 4, 7, 9, 12). -/
def State.reset : State where
  params := Params.default
  err := false
  cause := 0
  result := none
  pending := []
  held := none
  agenda := []
  transportFair := true
  log := []
  device := Device.unknown
  freeReads := 0

end Sys2Proof.Machine
end

