-- ==== Sys2Proof/Machine/Memory.lean ====
section
/-! DEFINITION. Memory as a canonical list of cells: the form, the read of one byte, the write of one byte and
the write of consecutive bytes. It carries the device register space, 256 offsets of 8 bits (R50). -/

namespace Sys2Proof.Machine

/-- Addresses strictly rising, the first above `low`. -/
def Memory.risingFrom (low : Nat) : Memory → Bool
  | [] => true
  | (a, _) :: rest => decide (low ≤ a) && Memory.risingFrom (a + 1) rest

/-- Every listed offset exists: 8-bit register offsets (R50). -/
def Memory.inSpace (m : Memory) : Bool := m.all fun cell => decide (cell.1 < 256)

/-- The canonical form: equal memories are equal lists. -/
def Memory.wf (m : Memory) : Bool := Memory.risingFrom 0 m && Memory.inSpace m

/-- The byte at an address; none where it has no known value (log 9). -/
def Memory.read : Memory → Nat → Option Byte
  | [], _ => none
  | (a, b) :: rest, x => if a = x then some b else Memory.read rest x

/-- The memory with one byte written, in canonical form. -/
def Memory.write : Memory → Nat → Byte → Memory
  | [], x, v => [(x, v)]
  | (a, b) :: rest, x, v =>
    if x < a then (x, v) :: (a, b) :: rest
    else if x = a then (x, v) :: rest
    else (a, b) :: Memory.write rest x v

/-- `d_j` to `start + j - 1` for j = 1..k (R57). -/
def Memory.writeBytes (m : Memory) (start : Nat) : List Byte → Memory
  | [] => m
  | d :: ds => Memory.writeBytes (m.write start d) (start + 1) ds

end Sys2Proof.Machine
end

