-- ==== Sys2Proof/Machine/Rom.lean ====
section
/-! DEFINITION. The correction ROM: its 256 entries (R91) and its read (R92). A constant: nothing writes it
(R20, R61), so it is no field of State (log 18). -/

namespace Sys2Proof.Machine

/-- `ROM[0..15]` (R91). -/
def romRow0 : List Tick := [0, 2, 4, 5, 7, 9, 11, 12, 14, 16, 18, 20, 21, 23, 25, 27]

/-- `ROM[16..31]` (R91). -/
def romRow1 : List Tick := [28, 30, 32, 34, 36, 37, 39, 41, 43, 45, 47, 49, 52, 54, 56, 59]

/-- `ROM[32..47]` (R91). -/
def romRow2 : List Tick := [61, 64, 66, 69, 72, 75, 77, 80, 83, 87, 90, 93, 96, 100, 103, 107]

/-- `ROM[48..63]` (R91). -/
def romRow3 : List Tick := [111, 115, 118, 122, 126, 131, 135, 139, 144, 148, 153, 157, 162, 167, 172, 177]

/-- `ROM[64..79]` (R91). -/
def romRow4 : List Tick := [182, 187, 193, 198, 204, 209, 215, 221, 227, 233, 239, 246, 252, 259, 265, 272]

/-- `ROM[80..95]` (R91). -/
def romRow5 : List Tick := [279, 286, 293, 300, 308, 315, 323, 330, 338, 346, 354, 362, 371, 379, 388, 396]

/-- `ROM[96..111]` (R91). -/
def romRow6 : List Tick := [405, 414, 423, 432, 442, 451, 461, 470, 480, 490, 501, 511, 521, 532, 543, 553]

/-- `ROM[112..127]` (R91). -/
def romRow7 : List Tick := [564, 576, 587, 598, 610, 622, 634, 646, 658, 670, 683, 695, 708, 721, 734, 748]

/-- `ROM[128..143]` (R91). -/
def romRow8 : List Tick := [761, 775, 788, 802, 816, 831, 845, 860, 874, 889, 904, 920, 935, 951, 966, 982]

/-- `ROM[144..159]` (R91). -/
def romRow9 : List Tick := [999, 1015, 1031, 1048, 1065, 1082, 1099, 1116, 1134, 1152, 1170, 1188, 1206, 1224, 1243, 1262]

/-- `ROM[160..175]` (R91). -/
def romRow10 : List Tick := [1281, 1300, 1320, 1339, 1359, 1379, 1399, 1420, 1440, 1461, 1482, 1503, 1525, 1546, 1568, 1590]

/-- `ROM[176..191]` (R91). -/
def romRow11 : List Tick := [1612, 1635, 1657, 1680, 1703, 1726, 1750, 1774, 1797, 1822, 1846, 1870, 1895, 1920, 1945, 1971]

/-- `ROM[192..207]` (R91). -/
def romRow12 : List Tick := [1996, 2022, 2048, 2074, 2101, 2128, 2155, 2182, 2209, 2237, 2265, 2293, 2321, 2350, 2378, 2407]

/-- `ROM[208..223]` (R91). -/
def romRow13 : List Tick := [2437, 2466, 2496, 2526, 2556, 2587, 2617, 2648, 2679, 2711, 2743, 2774, 2807, 2839, 2872, 2905]

/-- `ROM[224..239]` (R91). -/
def romRow14 : List Tick := [2938, 2971, 3005, 3039, 3073, 3107, 3142, 3177, 3212, 3248, 3283, 3319, 3356, 3392, 3429, 3466]

/-- `ROM[240..255]` (R91). -/
def romRow15 : List Tick := [3503, 3541, 3578, 3617, 3655, 3694, 3732, 3772, 3811, 3851, 3891, 3931, 3972, 4012, 4054, 4095]

/-- The contents of the correction ROM (R91). -/
def romTable : List Tick :=
  romRow0 ++ romRow1 ++ romRow2 ++ romRow3 ++ romRow4 ++ romRow5 ++ romRow6 ++ romRow7
    ++ romRow8 ++ romRow9 ++ romRow10 ++ romRow11 ++ romRow12 ++ romRow13 ++ romRow14 ++ romRow15

/-- `ROM[i]`: total on the 8-bit indices (R92). -/
def rom (i : Byte) : Tick := romTable.getD i.toNat 0

end Sys2Proof.Machine
end

