-- ==== Sys2Proof/Machine/Operands.lean ====
section
/-! DEFINITION. From a command's operands to the bytes of a group: level lists (R132), the PWM pair (R113),
its four bytes (R54, R117), the payload of a group (R118) and its place (R51, R52). -/

namespace Sys2Proof.Machine

/-- Offset of the device's mode register 1 (R7, R51). -/
def mode1Reg : Byte := 0x00

/-- Offset of the device's mode register 2 (R7, R51). -/
def mode2Reg : Byte := 0x01

/-- `GreyLevels(l)`: every channel of the group gets the level (R132). -/
def greyLevels (p : Params) (level : Byte) : List Byte := List.replicate p.channels level

/-- `RgbLevels(r, g, b)`: red first (R53, R132). -/
def rgbLevels (red green blue : Byte) : List Byte := [red, green, blue]

/-- `PHASE[g]` (R110). -/
def phaseOf (p : Params) (g : Nat) : Tick := p.phase.getD g 0

/-- The on-time and off-time of one channel (R12). -/
structure PwmPair where
  on : Tick
  off : Tick
  deriving DecidableEq, Repr

/-- `on = PHASE[g]`, `off = (on + count) mod 4096` (R113). -/
def pwmPair (phase count : Tick) : PwmPair where
  on := phase
  off := BitVec.ofNat 12 ((phase.toNat + count.toNat) % 4096)

/-- `lo(v) = v[7:0]` (R54). -/
def loByte (v : Tick) : Byte := v.extractLsb' 0 8

/-- `hi(v) = zext_8(v[11:8])` (R54). -/
def hiByte (v : Tick) : Byte := (v.extractLsb' 8 4).zeroExtend 8

/-- `Tuple(on, off)` (R117). -/
def pairBytes (pr : PwmPair) : List Byte := [loByte pr.on, hiByte pr.on, loByte pr.off, hiByte pr.off]

/-- The four bytes of one channel of group `g` asked for a level (R114, R117). -/
def channelBytes (p : Params) (g : Nat) (level : Byte) : List Byte :=
  pairBytes (pwmPair (phaseOf p g) (rom level))

/-- `GroupBytes(g, ls)`, channel 0 first (R118). -/
def groupBytes (p : Params) (g : Nat) (levels : List Byte) : List Byte :=
  levels.flatMap (channelBytes p g)

/-- `GroupBase(g) = 0x06 + 4*W*g` (R52). -/
def groupBase (p : Params) (g : Nat) : Byte := BitVec.ofNat 8 (0x06 + 4 * p.channels * g)

end Sys2Proof.Machine
end

