-- ==== Sys2Proof/Machine/Device.lean ====
section
/-! DEFINITION. The device's reading of the token stream (R57), auxiliary: no command of the block depends on it.
Claims about device registers hold only once INIT has completed since the device's last reset (R57, R184). -/

namespace Sys2Proof.Machine

/-- INIT has completed since the device's registers were last lost: both mode registers are written, and only
INIT writes them (R57, R130, R184). DEDUCED, log 10. -/
def Device.initDone (d : Device) : Bool :=
  (d.regs.read mode1Reg.toNat).isSome && (d.regs.read mode2Reg.toNat).isSome

/-- The registers after a whole transaction (R57). A transaction of several bytes before INIT has completed
leaves every register at any value (U6), and so does one that runs past offset 0xFF: logs 9 to 11. -/
def Device.commit (d : Device) (start : Byte) (bytes : List Byte) : Memory :=
  if start.toNat + bytes.length ≤ 256 ∧ (bytes.length ≤ 1 ∨ d.initDone) then
    d.regs.writeBytes start.toNat bytes
  else []

/-- What the device at `addr` makes of one accepted token (R10, R57). Tokens that make no whole transaction, such as
the rest of one in which the device has reset on its own, are log 19, DESIGN CHOICE. -/
def Device.observe (addr : DevAddr) (d : Device) : Token → Device
  | .beginTxn a => { d with bus := if a = addr then .addressed else .ignored }
  | .byte b =>
    match d.bus with
    | .idle => d
    | .ignored => d
    | .addressed => { d with bus := .data b [] }
    | .data start bytes => { d with bus := .data start (bytes ++ [b]) }
  | .endTxn =>
    match d.bus with
    | .idle => d
    | .ignored => { d with bus := .idle }
    | .addressed => { d with bus := .idle }
    | .data start bytes => { regs := d.commit start bytes, bus := .idle }

/-- The register is being written by the transaction under way (log 11). -/
def BusPhase.touches (bus : BusPhase) (offset : Nat) : Bool :=
  match bus with
  | .idle => false
  | .ignored => false
  | .addressed => false
  | .data start bytes => decide (start.toNat ≤ offset ∧ offset < start.toNat + bytes.length)

/-- The known content of a device register, if there is one (R57, R182, R184). -/
def Device.register (d : Device) (offset : Byte) : Option Byte :=
  if d.initDone && !d.bus.touches offset.toNat then d.regs.read offset.toNat else none

end Sys2Proof.Machine
end

