-- ==== Sys2Proof/Decode.lean ====
section
/-! DEFINITION. Decoding of command words, total and rejecting by cause (R80), and their encoding (R74, R78). -/

namespace Sys2Proof

/-- Why a word is rejected (R162). -/
inductive Cause where
  | reservedOpcode
  | sbzNonzero
  | shapeMismatch
  | groupRange
  deriving DecidableEq, Repr

/-- The code `STATUS.CAUSE` records (R162). -/
def Cause.code : Cause → BitVec 4
  | .reservedOpcode => 1
  | .sbzNonzero => 2
  | .shapeMismatch => 3
  | .groupRange => 4

/-- What decoding a word gives (R80). -/
inductive Decoded where
  | illegal (cause : Cause)
  | command (i : Instr)
  deriving DecidableEq, Repr

/-- `OP`, bits 31:28 (R70). -/
def opField (w : Word) : BitVec 4 := w.extractLsb' 28 4

/-- `GRP`, bits 27:24 (R70). -/
def grpField (w : Word) : GroupIndex := w.extractLsb' 24 4

/-- `A`, bits 23:16 (R70). -/
def aField (w : Word) : Byte := w.extractLsb' 16 8

/-- `B`, bits 15:8 (R70). -/
def bField (w : Word) : Byte := w.extractLsb' 8 8

/-- `C`, bits 7:0 (R70). -/
def cField (w : Word) : Byte := w.extractLsb' 0 8

/-- The command of an opcode if its should-be-zero fields are zero, else cause 2 (R72). -/
def ifUnusedZero (unusedZero : Bool) (i : Instr) : Decoded :=
  if unusedZero then .command i else .illegal .sbzNonzero

/-- The part of `Decode` that depends on the bit pattern alone: causes 1 and 2, then the operands
(R72, R73, R80). -/
def decodePattern (w : Word) : Decoded :=
  let grp := grpField w
  let a := aField w
  let b := bField w
  let c := cField w
  if opField w = 0x1 then ifUnusedZero (grp == 0 && a == 0 && b == 0 && c == 0) .init
  else if opField w = 0x2 then ifUnusedZero (grp == 0 && b == 0 && c == 0) (.setallGrey a)
  else if opField w = 0x3 then ifUnusedZero (grp == 0) (.setallRgb a b c)
  else if opField w = 0x4 then ifUnusedZero (b == 0 && c == 0) (.setgrpGrey grp a)
  else if opField w = 0x5 then .command (.setgrpRgb grp a b c)
  else if opField w = 0x6 then ifUnusedZero (grp == 0 && b == 0 && c == 0) (.correct a)
  else if opField w = 0x7 then ifUnusedZero (grp == 0) (.correctRgb a b c)
  else .illegal .reservedOpcode

/-- Cause 3 for a request with more shapes than the instance has channels (R76, R162). -/
def shapeCause (p : Params) : Option Cause :=
  if p.channels = 1 then some .shapeMismatch else none

/-- Cause 4 for a group index outside 0..N-1 (R76, R162). -/
def groupCause (p : Params) (group : GroupIndex) : Option Cause :=
  if p.groups ≤ group.toNat then some .groupRange else none

/-- The cause with which an instance rejects a command whose bit pattern is good: 3 before 4 (R80, R163). -/
def illegality (p : Params) : Instr → Option Cause
  | .init => none
  | .setallGrey _ => none
  | .setallRgb _ _ _ => shapeCause p
  | .setgrpGrey group _ => groupCause p group
  | .setgrpRgb group _ _ _ => (shapeCause p).or (groupCause p group)
  | .correct _ => none
  | .correctRgb _ _ _ => none

/-- `Decode(w)` of R80 in an instance with parameters `p`. -/
def decode (p : Params) (w : Word) : Decoded :=
  match decodePattern w with
  | .illegal c => .illegal c
  | .command i =>
    match illegality p i with
    | some c => .illegal c
    | none => .command i

/-- `{OP, GRP, A, B, C}` (R78). -/
def assembleFields (op : BitVec 4) (grp : GroupIndex) (a b c : Byte) : Word :=
  op ++ grp ++ a ++ b ++ c

/-- The word of a command, every unused field zero (R74, R78). -/
def encode : Instr → Word
  | .init => assembleFields 0x1 0 0 0 0
  | .setallGrey level => assembleFields 0x2 0 level 0 0
  | .setallRgb red green blue => assembleFields 0x3 0 red green blue
  | .setgrpGrey group level => assembleFields 0x4 group level 0 0
  | .setgrpRgb group red green blue => assembleFields 0x5 group red green blue
  | .correct level => assembleFields 0x6 0 level 0 0
  | .correctRgb red green blue => assembleFields 0x7 0 red green blue

/-- The word that `nbits` bits of a table row stand for; every bit from `nbits` up is 0. -/
def tableWord (nbits w : Nat) : Word := BitVec.ofNat 32 (w % 2 ^ nbits)

/-- The command the bit pattern of a table word stands for. Legality that depends on the parameters
(R76) is no part of the pattern: DESIGN CHOICE, log 15. -/
def decodeTableWord (nbits w : Nat) : Option Instr :=
  match decodePattern (tableWord nbits w) with
  | .command i => some i
  | .illegal _ => none

end Sys2Proof
end

