-- ==== Sys2Proof/Machine/Flags.lean ====
section
/-! DEFINITION. STATUS and RESULT as the host reads them (R24, R26), and the rule of STATUS.ERR and
STATUS.CAUSE (R25). The block has no other flag (R31). -/

namespace Sys2Proof.Machine

/-- `STATUS.BUSY = 1`: PENDING is not empty (R20, R24). -/
def State.busy (s : State) : Bool := !s.pending.isEmpty

/-- The 8-bit STATUS register: CAUSE 7:4, bits 3:2 zero, ERR 1, BUSY 0 (R24). -/
def State.statusByte (s : State) : BitVec 8 :=
  s.cause ++ 0#2 ++ BitVec.ofBool s.err ++ BitVec.ofBool s.busy

/-- The 36-bit value `{RES2, RES1, RES0}` of a written RESULT (R26). -/
def LookupResult.value (r : LookupResult) : BitVec 36 := r.res2 ++ r.res1 ++ r.res0

/-- The first cause since reset is kept (R25). -/
def State.recordCause (s : State) (c : Cause) : State :=
  if s.err then s else { s with err := true, cause := c.code }

end Sys2Proof.Machine
end

