-- ==== Sys2Proof/Machine/Ops.lean ====
section
/-! DEFINITION. The shared operations: transactions (R10, R131), the acceptance of a command (R23, R30), the one
exception (R161), the acceptance of a token (R30), reset (R180, R182) and the host's reads (R24, R26). The block
has no return from an exception (R166): the next command follows at once. -/

namespace Sys2Proof.Machine

/-- `Txn(a, r, ds)` (R10). -/
def txn (a : DevAddr) (r : Byte) (ds : List Byte) : List Token :=
  .beginTxn a :: .byte r :: (ds.map Token.byte ++ [.endTxn])

/-- `GroupTxn(g, ls)` (R131). -/
def groupTxn (p : Params) (g : Nat) (levels : List Byte) : List Token :=
  txn p.devAddr (groupBase p g) (groupBytes p g levels)

/-- Every group's transaction, in ascending group order (R136, R137). -/
def allGroupsTxns (p : Params) (levels : List Byte) : List Token :=
  (List.range p.groups).flatMap fun g => groupTxn p g levels

/-- `Tokens(INIT)` (R130). -/
def initTokens (p : Params) : List Token :=
  txn p.devAddr mode1Reg [p.mode1Init] ++ txn p.devAddr mode2Reg [p.mode2Init]

/-- `Tokens(cmd)` of every command (R130 to R139); the lookups emit none (R95, R96). -/
def tokensOf (p : Params) : Instr → List Token
  | .init => initTokens p
  | .setallGrey level => allGroupsTxns p (greyLevels p level)
  | .setallRgb red green blue => allGroupsTxns p (rgbLevels red green blue)
  | .setgrpGrey group level => groupTxn p group.toNat (greyLevels p level)
  | .setgrpRgb group red green blue => groupTxn p group.toNat (rgbLevels red green blue)
  | .correct _ => []
  | .correctRgb _ _ _ => []

/-- The offered word leaves the command interface: it is accepted (R23). -/
def State.takeOffer (s : State) : State := { s with held := none }

/-- `raise IllegalCommand(c)`, taken in the acceptance step (R161). -/
def State.raiseIllegal (s : State) (c : Cause) : State := s.takeOffer.recordCause c

/-- A bus command starts: `PENDING <- ts` (R30). -/
def State.startTokens (s : State) (ts : List Token) : State := { s with pending := ts }

/-- A lookup writes RESULT (R26, R95, R96). -/
def State.writeResult (s : State) (r : LookupResult) : State := { s with result := some r }

/-- AcceptCommand for a command (R30): performed in an idle block, rejected with cause 3 or 4 where the instance
does not take it (R162), held without effect while `BUSY = 1` (R23), refused in an ill-formed instance (R6).
Logs 13, 14 and 16. -/
def perform (i : Instr) (effect : State → State) (s : State) : Host.Outcome State Fault Refusal :=
  if s.params.wf then
    if s.busy then .next s
    else
      match illegality s.params i with
      | some c => .next (s.raiseIllegal c)
      | none => .next (effect s.takeOffer)
  else .refused .illFormedInstance

/-- TransportAccept for a pending token: it is observed, and the device sees it (R30, R57). -/
def State.acceptToken (s : State) (t : Token) (rest : List Token) : State :=
  { s with
    pending := rest
    log := s.log ++ [.token t]
    device := s.device.observe s.params.devAddr t }

/-- TransportAccept (R30); a transport that is ready while nothing is offered changes nothing (log 5). -/
def transportTurn (s : State) : Host.Outcome State Fault Refusal :=
  match s.pending with
  | [] => .next s
  | t :: rest => .next (s.acceptToken t rest)

/-- The state once the transport has accepted the tokens `ts`, the last of which empties PENDING. -/
def State.acceptAll (s : State) : List Token → State
  | [] => s
  | t :: rest => (s.acceptToken t rest).acceptAll rest

/-- What one more observation makes of "a transaction is open" (R10, R182). -/
def openAfter (isOpen : Bool) : Observation → Bool
  | .token (.beginTxn _) => true
  | .token (.byte _) => isOpen
  | .token .endTxn => false
  | .unterminated => false
  | .status _ => isOpen
  | .result _ => isOpen
  | .unwrittenResult _ => isOpen

/-- The transport has accepted a BEGIN whose END it has not accepted (R182). -/
def State.transactionOpen (s : State) : Bool := s.log.foldl openAfter false

/-- The registers of R32 after a reset, the parameters as configured (R180). -/
def State.clearRegisters (s : State) : State :=
  { s with pending := [], err := false, cause := 0, result := none }

/-- Reset at any time (R180, R181). A transaction it cuts is marked unterminated, and no device register is
known after it (R182, U5): log 9. The word the host offers stays offered: log 4. -/
def State.resetBlock (s : State) : State :=
  if s.transactionOpen then
    { s.clearRegisters with log := s.log ++ [.unterminated], device := Device.unknown }
  else s.clearRegisters

/-- A host read of RESULT while it is unwritten: the hardware returns an unspecified value and goes on; the read is
recorded as the fault that R26 and U1 ask of a model, with a free value (log 12). -/
def State.readUnwritten (s : State) : State :=
  { s with
    log := s.log ++ [.unwrittenResult (Config.unspecifiedResult s.freeReads)]
    freeReads := s.freeReads + 1 }

/-- HostRead: no state of the block changes, the value is observed (R11, R24, R26, R30). -/
def hostRead (r : HostReg) (s : State) : Host.Outcome State Fault Refusal :=
  match r with
  | .status => .next { s with log := s.log ++ [.status s.statusByte] }
  | .result =>
    match s.result with
    | some v => .next { s with log := s.log ++ [.result v.value] }
    | none => .next s.readUnwritten

end Sys2Proof.Machine
end

