-- ==== Sys2Proof/Machine/Lookup.lean ====
section
/-! DEFINITION. The lookup commands: CORRECT and CORRECT.RGB (R95, R96). -/

namespace Sys2Proof.Machine

/-- CORRECT level (R95). -/
def execCorrect (level : Byte) (s : State) : Host.Outcome State Fault Refusal :=
  perform (.correct level) (fun t => t.writeResult ⟨rom level, 0, 0⟩) s

/-- CORRECT.RGB red, green, blue (R96). -/
def execCorrectRgb (red green blue : Byte) (s : State) : Host.Outcome State Fault Refusal :=
  perform (.correctRgb red green blue) (fun t => t.writeResult ⟨rom red, rom green, rom blue⟩) s

end Sys2Proof.Machine
end

