-- ==== Sys2Proof/Machine/Sequencer.lean ====
section
/-! DEFINITION. The bus commands: INIT, SETALL.GREY, SETALL.RGB, SETGRP.GREY, SETGRP.RGB (R130 to R139). -/

namespace Sys2Proof.Machine

/-- INIT (R130). -/
def execInit (s : State) : Host.Outcome State Fault Refusal :=
  perform .init (fun t => t.startTokens (initTokens t.params)) s

/-- SETALL.GREY level (R136). -/
def execSetallGrey (level : Byte) (s : State) : Host.Outcome State Fault Refusal :=
  perform (.setallGrey level) (fun t => t.startTokens (allGroupsTxns t.params (greyLevels t.params level))) s

/-- SETALL.RGB red, green, blue (R137). -/
def execSetallRgb (red green blue : Byte) (s : State) : Host.Outcome State Fault Refusal :=
  perform (.setallRgb red green blue) (fun t => t.startTokens (allGroupsTxns t.params (rgbLevels red green blue))) s

/-- SETGRP.GREY group, level (R138). -/
def execSetgrpGrey (group : GroupIndex) (level : Byte) (s : State) : Host.Outcome State Fault Refusal :=
  perform (.setgrpGrey group level)
    (fun t => t.startTokens (groupTxn t.params group.toNat (greyLevels t.params level))) s

/-- SETGRP.RGB group, red, green, blue (R139). -/
def execSetgrpRgb (group : GroupIndex) (red green blue : Byte) (s : State) : Host.Outcome State Fault Refusal :=
  perform (.setgrpRgb group red green blue)
    (fun t => t.startTokens (groupTxn t.params group.toNat (rgbLevels red green blue))) s

end Sys2Proof.Machine
end

