-- ==== Sys2Proof/Machine/Dispatch.lean ====
section
/-! DEFINITION. The meaning of every command: one arm per constructor. -/

namespace Sys2Proof.Machine

def exec (i : Instr) (s : State) : Host.Outcome State Fault Refusal :=
  match i with
  | .init => Sys2Proof.Machine.execInit s
  | .setallGrey level => Sys2Proof.Machine.execSetallGrey level s
  | .setallRgb red green blue => Sys2Proof.Machine.execSetallRgb red green blue s
  | .setgrpGrey group level => Sys2Proof.Machine.execSetgrpGrey group level s
  | .setgrpRgb group red green blue => Sys2Proof.Machine.execSetgrpRgb group red green blue s
  | .correct level => Sys2Proof.Machine.execCorrect level s
  | .correctRgb red green blue => Sys2Proof.Machine.execCorrectRgb red green blue s

end Sys2Proof.Machine
end

