-- ==== Sys2Proof/Machine/Turns.lean ====
section
/-! DEFINITION. The kinds of step (R30): the command interface's turn, one outside event, and what the block does
when the agenda names no event. -/

namespace Sys2Proof.Machine

/-- AcceptCommand (R30): an offer is accepted only when `BUSY = 0`, else it is held (R23). -/
def acceptOffer (s : State) : Host.Outcome State Fault Refusal :=
  match s.held with
  | none => .next s
  | some w =>
    match decode s.params w with
    | .illegal c => .next (if s.busy then s else s.raiseIllegal c)
    | .command i => exec i s

/-- One event of the agenda. A device that resets on its own leaves the transaction under way: DESIGN CHOICE,
log 19. -/
def eventTurn (e : Event) (s : State) : Host.Outcome State Fault Refusal :=
  match e with
  | .present w => .next { s with held := some w }
  | .withdraw => .next { s with held := none }
  | .accept => acceptOffer s
  | .transportAccept => transportTurn s
  | .read r => hostRead r s
  | .reset => .next s.resetBlock
  | .deviceReset => .next { s with device := Device.unknown }

/-- With nothing left on the agenda the block runs on: the pending tokens first, then the offered word, else it
waits (log 3). A transport that accepts no more leaves it stuck (R164). -/
def selfTurn (s : State) : Host.Outcome State Fault Refusal :=
  if s.busy && !s.transportFair then .fault .transportNeverAccepts
  else if s.busy then transportTurn s
  else acceptOffer s

/-- One step of a legal instance. -/
def turn (s : State) : Host.Outcome State Fault Refusal :=
  match s.agenda with
  | [] => selfTurn s
  | e :: rest => eventTurn e { s with agenda := rest }

/-- The state in which the host offers `w` to the idle block and the command interface has the next turn: the
transport has accepted every token of a command in progress (log 6). -/
def State.offerNext (s : State) (w : Word) : State :=
  { s.acceptAll s.pending with held := some w, agenda := .accept :: s.agenda }

end Sys2Proof.Machine
end

