-- ==== Sys2Proof/Machine/Step.lean ====
section
/-! DEFINITION. One step of the machine, and the placing of a word where it takes its next command. -/

namespace Sys2Proof.Machine

/-- One step; an instance whose parameters break R6 or R111 is refused. -/
def step (s : State) : Host.Outcome State Fault Refusal :=
  if s.params.wf then turn s else .refused .illFormedInstance

/-- The host offers this word next (log 6). -/
def State.withFetchWord (s : State) (nbits w : Nat) : State :=
  s.offerNext (tableWord nbits w)

end Sys2Proof.Machine
end

