-- ==== Sys2Proof/Machine/Asm.lean ====
section
/-! DEFINITION. The assembler of R77 and R78: one line of text, as its list of characters, to one command word.
What R77 leaves open of the text (blanks, letter case, leading zeros, a line without a command) is log 17. -/

namespace Sys2Proof.Machine

/-- The mnemonic of a command (R73). -/
def mnemonicOf : Instr → List Char
  | .init => ['I', 'N', 'I', 'T']
  | .setallGrey _ => ['S', 'E', 'T', 'A', 'L', 'L', '.', 'G', 'R', 'E', 'Y']
  | .setallRgb _ _ _ => ['S', 'E', 'T', 'A', 'L', 'L', '.', 'R', 'G', 'B']
  | .setgrpGrey _ _ => ['S', 'E', 'T', 'G', 'R', 'P', '.', 'G', 'R', 'E', 'Y']
  | .setgrpRgb _ _ _ _ => ['S', 'E', 'T', 'G', 'R', 'P', '.', 'R', 'G', 'B']
  | .correct _ => ['C', 'O', 'R', 'R', 'E', 'C', 'T']
  | .correctRgb _ _ _ => ['C', 'O', 'R', 'R', 'E', 'C', 'T', '.', 'R', 'G', 'B']

/-- The operands of a command in the order its line writes them (R77). -/
def operandsOf : Instr → List Nat
  | .init => []
  | .setallGrey level => [level.toNat]
  | .setallRgb red green blue => [red.toNat, green.toNat, blue.toNat]
  | .setgrpGrey group level => [group.toNat, level.toNat]
  | .setgrpRgb group red green blue => [group.toNat, red.toNat, green.toNat, blue.toNat]
  | .correct level => [level.toNat]
  | .correctRgb red green blue => [red.toNat, green.toNat, blue.toNat]

/-- A level operand, refused outside 0..255 (R77). -/
def levelOperand (n : Nat) : Option Byte := if n < 256 then some (BitVec.ofNat 8 n) else none

/-- A group operand, refused outside 0..15; one in N..15 assembles (R77). -/
def groupOperand (n : Nat) : Option GroupIndex := if n < 16 then some (BitVec.ofNat 4 n) else none

/-- One level operand and no more. -/
def oneLevel (f : Byte → Instr) : List Nat → Option Instr
  | [l] => (levelOperand l).map f
  | _ => none

/-- Three level operands and no more. -/
def threeLevels (f : Byte → Byte → Byte → Instr) : List Nat → Option Instr
  | [r, g, b] =>
    match levelOperand r, levelOperand g, levelOperand b with
    | some r, some g, some b => some (f r g b)
    | _, _, _ => none
  | _ => none

/-- A group operand and then the rest. -/
def groupThen (f : GroupIndex → List Nat → Option Instr) : List Nat → Option Instr
  | n :: rest =>
    match groupOperand n with
    | some group => f group rest
    | none => none
  | [] => none

/-- The command of a mnemonic and its operands; a missing or extra operand is refused (R77). -/
def assembleOperands (mnemonic : List Char) (operands : List Nat) : Option Instr :=
  if mnemonic = mnemonicOf .init then if operands = [] then some .init else none
  else if mnemonic = mnemonicOf (.setallGrey 0) then oneLevel .setallGrey operands
  else if mnemonic = mnemonicOf (.setallRgb 0 0 0) then threeLevels .setallRgb operands
  else if mnemonic = mnemonicOf (.setgrpGrey 0 0) then
    groupThen (fun group => oneLevel (.setgrpGrey group)) operands
  else if mnemonic = mnemonicOf (.setgrpRgb 0 0 0 0) then
    groupThen (fun group => threeLevels (.setgrpRgb group)) operands
  else if mnemonic = mnemonicOf (.correct 0) then oneLevel .correct operands
  else if mnemonic = mnemonicOf (.correctRgb 0 0 0) then threeLevels .correctRgb operands
  else none

/-- A blank between the parts of a line (log 17). -/
def isBlank (c : Char) : Bool := c == ' ' || c == '\t'

/-- The text without blanks at its two ends. -/
def trimBlanks (cs : List Char) : List Char :=
  ((cs.dropWhile isBlank).reverse.dropWhile isBlank).reverse

/-- The value of a digit in base 10 or 16. -/
def digitValue (base : Nat) (c : Char) : Option Nat :=
  if 48 ≤ c.toNat ∧ c.toNat ≤ 57 then some (c.toNat - 48)
  else if base = 16 ∧ 97 ≤ c.toNat ∧ c.toNat ≤ 102 then some (c.toNat - 87)
  else if base = 16 ∧ 65 ≤ c.toNat ∧ c.toNat ≤ 70 then some (c.toNat - 55)
  else none

/-- The number that digits continue. -/
def digitsValue (base acc : Nat) : List Char → Option Nat
  | [] => some acc
  | c :: cs =>
    match digitValue base c with
    | some d => digitsValue base (acc * base + d) cs
    | none => none

/-- A decimal or 0x-prefixed hexadecimal number (R77). -/
def numberOf (cs : List Char) : Option Nat :=
  if cs = [] then none
  else if cs.take 2 = ['0', 'x'] ∧ cs.drop 2 ≠ [] then digitsValue 16 0 (cs.drop 2)
  else digitsValue 10 0 cs

/-- The numbers of the operand texts, if all are numbers. -/
def numbersOf : List (List Char) → Option (List Nat)
  | [] => some []
  | f :: fs =>
    match numberOf f, numbersOf fs with
    | some n, some ns => some (n :: ns)
    | _, _ => none

/-- The parts of the text between commas. -/
def splitCommas : List Char → List (List Char)
  | [] => [[]]
  | c :: cs =>
    if c == ',' then [] :: splitCommas cs
    else
      match splitCommas cs with
      | [] => [[c]]
      | f :: fs => (c :: f) :: fs

/-- The operand texts: separated by commas, none where nothing stands (R77). -/
def operandTexts (cs : List Char) : List (List Char) :=
  if trimBlanks cs = [] then [] else (splitCommas cs).map trimBlanks

/-- The command of one line; `;` starts a comment (R77). A blank or comment-only line has no command and gives none,
as a refused line does (DESIGN CHOICE, log 17). -/
def parseLine (line : List Char) : Option Instr :=
  let code := trimBlanks (line.takeWhile fun c => c != ';')
  match numbersOf (operandTexts (code.dropWhile fun c => !isBlank c)) with
  | some operands => assembleOperands (code.takeWhile fun c => !isBlank c) operands
  | none => none

/-- The word of one line (R78). -/
def assembleLine (line : List Char) : Option Word := (parseLine line).map encode

end Sys2Proof.Machine
end

