-- ==== Sys2Proof/Safety.lean ====
section
/-! DEFINITION. What counts as a safe run: the stream of tokens is made of whole transactions (R10, R59), STATUS
is coherent (R24, R162), one command is in progress at a time (R23), and memory is canonical. -/

namespace Sys2Proof.Machine

/-- The tokens the transport has accepted, in order (R11). -/
def tokensIn : List Observation → List Token
  | [] => []
  | .token t :: rest => t :: tokensIn rest
  | .unterminated :: rest => tokensIn rest
  | .status _ :: rest => tokensIn rest
  | .result _ :: rest => tokensIn rest
  | .unwrittenResult _ :: rest => tokensIn rest

/-- The tokens accepted so far. -/
def State.emitted (s : State) : List Token := tokensIn s.log

/-- The observation is the recorded fault of U1: a read of an unwritten RESULT (R26). -/
def Observation.isFault : Observation → Bool
  | .unwrittenResult _ => true
  | .token _ => false
  | .unterminated => false
  | .status _ => false
  | .result _ => false

/-- A fault is recorded: the run has read an unwritten RESULT, and no state from there on counts as a final one
(the treatment `fault` of 93_implementation_defined.md). -/
def State.faultRecorded (s : State) : Bool := s.log.any Observation.isFault

/-- Where a stream stands in a transaction (R10). -/
inductive Framing where
  | closed
  | begun
  | started
  | body
  deriving DecidableEq, Repr

/-- BEGIN with the instance's address, a start register, at least one data byte, END (R10, R28). -/
def frameToken (addr : DevAddr) : Framing → Token → Option Framing
  | .closed, .beginTxn a => if a = addr then some .begun else none
  | .begun, .byte _ => some .started
  | .started, .byte _ => some .body
  | .body, .byte _ => some .body
  | .body, .endTxn => some .closed
  | .closed, .byte _ => none
  | .closed, .endTxn => none
  | .begun, .beginTxn _ => none
  | .begun, .endTxn => none
  | .started, .beginTxn _ => none
  | .started, .endTxn => none
  | .body, .beginTxn _ => none

/-- The framing after more tokens; none where they break it. -/
def frameTokens (addr : DevAddr) (f : Framing) : List Token → Option Framing
  | [] => some f
  | t :: ts =>
    match frameToken addr f t with
    | some f' => frameTokens addr f' ts
    | none => none

/-- The framing after an observation log; the mark of R182 stands only in an open transaction and closes it. -/
def frameLog (addr : DevAddr) (f : Framing) : List Observation → Option Framing
  | [] => some f
  | .token t :: rest =>
    match frameToken addr f t with
    | some f' => frameLog addr f' rest
    | none => none
  | .unterminated :: rest => if f = .closed then none else frameLog addr .closed rest
  | .status _ :: rest => frameLog addr f rest
  | .result _ :: rest => frameLog addr f rest
  | .unwrittenResult _ :: rest => frameLog addr f rest

/-- What the transport has accepted, continued by what is pending, is made of whole transactions. -/
def State.framed (s : State) : Bool :=
  match frameLog s.params.devAddr .closed s.log with
  | some f => frameTokens s.params.devAddr f s.pending == some .closed
  | none => false

/-- CAUSE is 0 while ERR is 0 and one of 1..4 once ERR is 1 (R24, R162). -/
def State.statusCoherent (s : State) : Bool :=
  if s.err then decide (1 ≤ s.cause.toNat ∧ s.cause.toNat ≤ 4) else s.cause == 0

/-- The invariant of the machine. -/
structure MachineInv (s : State) : Prop where
  legalInstance : s.params.wf = true
  coherent : s.statusCoherent = true
  framed : s.framed = true
  canonical : s.device.regs.wf = true

/-- What is pending is the rest of ONE command the instance takes, whose first tokens are the last that the
transport accepted (R23, R59). -/
def OneCommand (s : State) : Prop :=
  s.pending = [] ∨
    ∃ i done, Instr.wf s.params i = true ∧ tokensOf s.params i = done ++ s.pending ∧ done <:+ s.emitted

/-- `k` steps of the machine from a state, stopping at the first fault or refusal. -/
def runFrom : Nat → State → Host.Outcome State Fault Refusal
  | 0, s => .next s
  | k + 1, s =>
    match step s with
    | .next s' => runFrom k s'
    | .fault r => .fault r
    | .refused r => .refused r

/-- The command interface has the next turn, by the agenda or because nothing is left on it. -/
def State.acceptIsNext (s : State) : Bool :=
  match s.agenda with
  | [] => true
  | .accept :: _ => true
  | .present _ :: _ => false
  | .withdraw :: _ => false
  | .transportAccept :: _ => false
  | .read _ :: _ => false
  | .reset :: _ => false
  | .deviceReset :: _ => false

/-- The offered word, if the block accepts it in its next step: rejected or performed (R23, R30). -/
def State.acceptedWord (s : State) : Option Word :=
  if s.acceptIsNext && s.pending.isEmpty then s.held else none

/-- The command the block performs in its next step, if any. -/
def State.acceptedNow (s : State) : Option Instr :=
  match s.acceptedWord with
  | none => none
  | some w =>
    match decode s.params w with
    | .illegal _ => none
    | .command i => some i

/-- The commands performed in `k` steps from a state, in order. -/
def acceptedIn : Nat → State → List Instr
  | 0, _ => []
  | k + 1, s =>
    s.acceptedNow.toList ++
      match step s with
      | .next s' => acceptedIn k s'
      | .fault _ => []
      | .refused _ => []

/-- The RESULT a lookup writes (R95, R96); none for a bus command. -/
def lookupOf : Instr → Option LookupResult
  | .init => none
  | .setallGrey _ => none
  | .setallRgb _ _ _ => none
  | .setgrpGrey _ _ => none
  | .setgrpRgb _ _ _ _ => none
  | .correct level => some ⟨rom level, 0, 0⟩
  | .correctRgb red green blue => some ⟨rom red, rom green, rom blue⟩

/-- The rejection of the offered word with a cause code, field by field (R25, R161). -/
def State.rejectedWith (s : State) (code : BitVec 4) : State :=
  { s with held := none, err := true, cause := if s.err then s.cause else code }

/-- From a state whose agenda is used up, a fair transport accepts `ts` one a step (log 3: the model's choice): BUSY
is 1 until it has accepted the last of them (R24, R30, R190). -/
def BusyUntilLastEnd (t : State) (ts : List Token) : Prop :=
  t.agenda = [] → t.transportFair = true → ∀ k ≤ ts.length,
    ∃ u, runFrom k t = .next u ∧ u.busy = decide (k < ts.length) ∧ u.emitted = t.emitted ++ ts.take k

/-- The four bytes of a channel by plain arithmetic: on-low, on-high, off-low, off-high, with
`off = (PHASE[g] + ROM[level]) mod 4096` (R54, R113, R117). -/
def channelByArithmetic (p : Params) (g : Nat) (level : Byte) : List Byte :=
  let on := (p.phase.getD g 0).toNat
  let off := (on + (rom level).toNat) % 4096
  [BitVec.ofNat 8 (on % 256), BitVec.ofNat 8 (on / 256), BitVec.ofNat 8 (off % 256), BitVec.ofNat 8 (off / 256)]

/-- The tokens of a group's transaction by plain arithmetic (R10, R52, R118, R131). -/
def groupByArithmetic (p : Params) (g : Nat) (levels : List Byte) : List Token :=
  [.beginTxn p.devAddr, .byte (BitVec.ofNat 8 (6 + 4 * p.channels * g))]
    ++ (levels.flatMap (channelByArithmetic p g)).map .byte ++ [.endTxn]

end Sys2Proof.Machine
end

