-- ==== Sys2Proof/Certificates/Slice0/Obligations.lean ====
section
/-! DEFINITION. The statements for the provers, from the numbered rules of spec/. -/

open Sys2Proof Sys2Proof.Machine

/-! ## Encoding -/

/-- R80: decoding is the list of checks in the order the rule writes it, the first failure first. -/
def Obligations.DecodeIsTheCheckList : Prop :=
  ∀ (p : Params) (w : Word),
    decode p w =
      (let op := (w.extractLsb' 28 4).toNat
       let grp : BitVec 4 := w.extractLsb' 24 4
       let a : BitVec 8 := w.extractLsb' 16 8
       let b : BitVec 8 := w.extractLsb' 8 8
       let c : BitVec 8 := w.extractLsb' 0 8
       if op = 0 ∨ 8 ≤ op then .illegal .reservedOpcode
       else if op ∈ [1, 2, 3, 6, 7] ∧ grp ≠ 0 then .illegal .sbzNonzero
       else if op = 1 ∧ a ≠ 0 then .illegal .sbzNonzero
       else if op ∈ [1, 2, 4, 6] ∧ (b ≠ 0 ∨ c ≠ 0) then .illegal .sbzNonzero
       else if op ∈ [3, 5] ∧ p.channels = 1 then .illegal .shapeMismatch
       else if op ∈ [4, 5] ∧ grp.toNat ≥ p.groups then .illegal .groupRange
       else if op = 1 then .command .init
       else if op = 2 then .command (.setallGrey a)
       else if op = 3 then .command (.setallRgb a b c)
       else if op = 4 then .command (.setgrpGrey grp a)
       else if op = 5 then .command (.setgrpRgb grp a b c)
       else if op = 6 then .command (.correct a)
       else .command (.correctRgb a b c))

/-- The words that decode to a command are exactly the encoding of that command, in the instances that take it:
decode of encode is the identity, and no word has two commands and no command two words. -/
def Obligations.DecodeAnswersExactlyEncodings : Prop :=
  ∀ (p : Params) (w : Word) (i : Instr), decode p w = .command i ↔ Instr.wf p i = true ∧ w = encode i

/-- R73: a word is a row's command when its masked bits are the row's match, with the operands of the row's
fields; the reserved opcodes and no others are rejected as reserved. -/
def Obligations.RowsMatchUnderMask : Prop :=
  ∀ (w : Word),
    (decodePattern w = .command .init ↔ w &&& 0xFFFFFFFF#32 = 0x10000000#32) ∧
    (∀ l, decodePattern w = .command (.setallGrey l) ↔
      w &&& 0xFF00FFFF#32 = 0x20000000#32 ∧ l = w.extractLsb' 16 8) ∧
    (∀ r g b, decodePattern w = .command (.setallRgb r g b) ↔
      w &&& 0xFF000000#32 = 0x30000000#32 ∧
        r = w.extractLsb' 16 8 ∧ g = w.extractLsb' 8 8 ∧ b = w.extractLsb' 0 8) ∧
    (∀ n l, decodePattern w = .command (.setgrpGrey n l) ↔
      w &&& 0xF000FFFF#32 = 0x40000000#32 ∧ n = w.extractLsb' 24 4 ∧ l = w.extractLsb' 16 8) ∧
    (∀ n r g b, decodePattern w = .command (.setgrpRgb n r g b) ↔
      w &&& 0xF0000000#32 = 0x50000000#32 ∧ n = w.extractLsb' 24 4 ∧
        r = w.extractLsb' 16 8 ∧ g = w.extractLsb' 8 8 ∧ b = w.extractLsb' 0 8) ∧
    (∀ l, decodePattern w = .command (.correct l) ↔
      w &&& 0xFF00FFFF#32 = 0x60000000#32 ∧ l = w.extractLsb' 16 8) ∧
    (∀ r g b, decodePattern w = .command (.correctRgb r g b) ↔
      w &&& 0xFF000000#32 = 0x70000000#32 ∧
        r = w.extractLsb' 16 8 ∧ g = w.extractLsb' 8 8 ∧ b = w.extractLsb' 0 8) ∧
    (decodePattern w = .illegal .reservedOpcode ↔
      w &&& 0xF0000000#32 = 0#32 ∨ w &&& 0x80000000#32 = 0x80000000#32)

/-- A word of every command, written out from the bit patterns of R74, decodes to it. -/
def Obligations.WrittenWordsDecode : Prop :=
  decode Params.default 0b00010000000000000000000000000000#32 = .command .init ∧
  decode Params.default 0b00100000111111110000000000000000#32 = .command (.setallGrey 255) ∧
  decode Params.default 0b00110000100000000000000011111111#32 = .command (.setallRgb 128 0 255) ∧
  decode Params.default 0b01000100000000000000000000000000#32 = .command (.setgrpGrey 4 0) ∧
  decode Params.default 0b01010000100000000000000011111111#32 = .command (.setgrpRgb 0 128 0 255) ∧
  decode Params.default 0b01100000100000000000000000000000#32 = .command (.correct 128) ∧
  decode Params.default 0b01110000000101000001010100010110#32 = .command (.correctRgb 20 21 22)

/-- R76: an RGB bus command is illegal with cause 3 where W = 1, a SETGRP command with a group from N up is
illegal with cause 4 (the RGB form where its shape is legal), and CORRECT.RGB is legal for every W. -/
def Obligations.ParametersDecideLegality : Prop :=
  (∀ (p : Params) (n : GroupIndex) (r g b : Byte), p.channels = 1 →
    decode p (encode (.setallRgb r g b)) = .illegal .shapeMismatch ∧
    decode p (encode (.setgrpRgb n r g b)) = .illegal .shapeMismatch) ∧
  (∀ (p : Params) (n : GroupIndex) (l : Byte), p.groups ≤ n.toNat →
    decode p (encode (.setgrpGrey n l)) = .illegal .groupRange) ∧
  (∀ (p : Params) (n : GroupIndex) (r g b : Byte), p.channels ≠ 1 → p.groups ≤ n.toNat →
    decode p (encode (.setgrpRgb n r g b)) = .illegal .groupRange) ∧
  (∀ (p : Params) (r g b : Byte), decode p (encode (.correctRgb r g b)) = .command (.correctRgb r g b))

/-- R77, R78: the assembler gives a command's line the command's word; it refuses every other count of operands
and every operand out of range; a group in N..15 assembles. The text form, with both kinds of number and a
comment, on the rule's own example (blanks as log 17 has them). -/
def Obligations.AssemblerGivesTheWord : Prop :=
  (∀ i : Instr, (assembleOperands (mnemonicOf i) (operandsOf i)).map encode = some (encode i)) ∧
  (∀ (i j : Instr) (ops : List Nat), assembleOperands (mnemonicOf i) ops = some j →
    mnemonicOf j = mnemonicOf i ∧ ops = operandsOf j) ∧
  assembleLine
    ['S', 'E', 'T', 'G', 'R', 'P', '.', 'R', 'G', 'B', ' ', '0', ',', ' ', '0', 'x', '8', '0', ',', ' ', '0', ',', ' ',
      '2', '5', '5', ' ', ';', ' ', 'e', 'x'] = some 0x508000FF#32

/-! ## The correction ROM and the PWM pair -/

/-- R90, R91: every entry of the ROM is the derivation of R90 in exact rational arithmetic. -/
def Obligations.RomIsTheLightnessDerivation : Prop :=
  ∀ i : Byte,
    let lightness : ℚ := 100 * (i.toNat : ℚ) / 255
    let y : ℚ := if lightness < 8 then lightness / (9033 / 10) else ((lightness + 16) / 116) ^ 3
    ((rom i).toNat : ℤ) = ⌊4095 * y + 1 / 2⌋

/-- R93: boundary values, strict growth in steps of 1 to 42, the chord, the 56 indices at which the next step is
smaller, and the indices of the two branches. -/
def Obligations.RomProperties : Prop :=
  rom 0 = 0 ∧ rom 255 = 4095 ∧
  (∀ i j : Byte, i.toNat < j.toNat → (rom i).toNat < (rom j).toNat) ∧
  (∀ i : Nat, i ≤ 254 →
    (rom (BitVec.ofNat 8 i)).toNat + 1 ≤ (rom (BitVec.ofNat 8 (i + 1))).toNat ∧
    (rom (BitVec.ofNat 8 (i + 1))).toNat ≤ (rom (BitVec.ofNat 8 i)).toNat + 42) ∧
  (∃ i : Byte, i.toNat ≤ 254 ∧ (rom (i + 1)).toNat = (rom i).toNat + 1) ∧
  (∃ i : Byte, i.toNat ≤ 254 ∧ (rom (i + 1)).toNat = (rom i).toNat + 42) ∧
  (∀ i : Byte, (rom i).toNat ≤ (2 * 4095 * i.toNat + 255) / (2 * 255)) ∧
  ((List.range 254).countP (fun i =>
    decide ((rom (BitVec.ofNat 8 (i + 2))).toNat - (rom (BitVec.ofNat 8 (i + 1))).toNat
      < (rom (BitVec.ofNat 8 (i + 1))).toNat - (rom (BitVec.ofNat 8 i)).toNat))) = 56 ∧
  (∀ i : Nat, (100 * i < 8 * 255 ↔ i ≤ 20) ∧ 100 * i ≠ 8 * 255)

/-- R113, R115, R116: the pair, its two forms, the law that the off edge is the count after the on edge, and the
corner cases with the source's wraparound example. -/
def Obligations.PairArithmetic : Prop :=
  (∀ phase count : Tick,
    (pwmPair phase count).on = phase ∧
    (pwmPair phase count).off.toNat = (phase.toNat + count.toNat) % 4096 ∧
    (pwmPair phase count).off.toNat =
      (if phase.toNat + count.toNat ≤ 4095 then phase.toNat + count.toNat else phase.toNat + count.toNat - 4096) ∧
    (pwmPair phase count).off - (pwmPair phase count).on = count) ∧
  (∀ phase : Tick, (pwmPair phase 0).off = phase ∧ (pwmPair phase 4095).off = phase - 1) ∧
  (pwmPair 2720 4095).off = 2719 ∧ (pwmPair 4095 1).off = 0 ∧ (pwmPair 0 4095).off = 4095

/-- R54, R117: a tick count goes out low byte first with bits 7:4 of the high byte zero, in the order on-low,
on-high, off-low, off-high. -/
def Obligations.TickBytes : Prop :=
  (∀ v : Tick,
    (loByte v).toNat = v.toNat % 256 ∧ (hiByte v).toNat = v.toNat / 256 ∧ (hiByte v).toNat < 16) ∧
  (∀ pr : PwmPair, pairBytes pr = [loByte pr.on, hiByte pr.on, loByte pr.off, hiByte pr.off]) ∧
  pairBytes ⟨2720, 2719⟩ = [0xA0, 0x0A, 0x9F, 0x0A]

/-- R114, R118: a group's payload is four bytes a channel, channel 0 first, and the bytes of a channel depend on
that channel's level and the group alone. -/
def Obligations.GroupPayload : Prop :=
  ∀ (p : Params) (g : Nat) (levels : List Byte),
    (groupBytes p g levels).length = 4 * levels.length ∧
    ∀ (k : Nat) (l : Byte), levels[k]? = some l →
      ((groupBytes p g levels).drop (4 * k)).take 4 = channelByArithmetic p g l

/-- R52: in a legal instance the start register of group `g` is `0x06 + 4*W*g`, its 4W registers end at 0x45 at
the latest and lie below the next group's, and the defaults give 0x06, 0x12, 0x1E, 0x2A, 0x36. -/
def Obligations.GroupPlacement : Prop :=
  (∀ (p : Params) (g : Nat), p.wf = true → g < p.groups →
    (groupBase p g).toNat = 0x06 + 4 * p.channels * g ∧
    (groupBase p g).toNat + 4 * p.channels ≤ 0x46 ∧
    (g + 1 < p.groups → (groupBase p (g + 1)).toNat = (groupBase p g).toNat + 4 * p.channels)) ∧
  (List.range 5).map (groupBase Params.default) = [0x06, 0x12, 0x1E, 0x2A, 0x36]

/-- R112: the default phase table, its values for N = 5 and N = 16, and its legality for every N and W of R6. -/
def Obligations.DefaultPhasesLegal : Prop :=
  (∀ n g : Nat, g < n → n ≤ 16 → ((defaultPhase n).getD g 0).toNat = 4096 * g / n) ∧
  defaultPhase 5 = [0, 819, 1638, 2457, 3276] ∧
  (∀ g : Nat, g < 16 → ((defaultPhase 16).getD g 0).toNat = 256 * g) ∧
  (∀ n w : Nat, 1 ≤ n → w = 1 ∨ w = 3 → n * w ≤ 16 →
    Params.wf { Params.default with groups := n, channels := w, phase := defaultPhase n } = true)

/-! ## The commands -/

/-- R95: CORRECT writes RESULT and nothing else, and the word leaves the interface; its encoding; its rejection
when an unused field is not zero; the corner levels and the example. -/
def Obligations.CorrectWritesResult : Prop :=
  (∀ (s : State) (level : Byte), s.params.wf = true → s.pending = [] →
    exec (.correct level) s = .next { s with held := none, result := some ⟨rom level, 0, 0⟩ }) ∧
  (∀ (p : Params) (level : Byte),
    decode p (0x6#4 ++ 0x0#4 ++ level ++ 0x00#8 ++ 0x00#8) = .command (.correct level)) ∧
  (∀ (s : State) (w : Word), s.params.wf = true → s.pending = [] → s.held = some w →
    w &&& 0xF0000000#32 = 0x60000000#32 → w &&& 0x0F00FFFF#32 ≠ 0#32 →
    acceptOffer s = .next (s.rejectedWith 2)) ∧
  rom 0 = 0 ∧ rom 255 = 4095 ∧ rom 20 = 36 ∧ rom 21 = 37 ∧
  decode Params.default 0x60800000#32 = .command (.correct 128) ∧
  LookupResult.value ⟨rom 128, 0, 0⟩ = 0x0000002F9#36

/-- R96: CORRECT.RGB writes the three lanes of RESULT independently and nothing else, for W = 1 and W = 3 alike;
its encoding, its rejection and the example. -/
def Obligations.CorrectRgbWritesLanes : Prop :=
  (∀ (s : State) (red green blue : Byte), s.params.wf = true → s.pending = [] →
    exec (.correctRgb red green blue) s =
      .next { s with held := none, result := some ⟨rom red, rom green, rom blue⟩ }) ∧
  (∀ (p : Params) (red green blue : Byte),
    decode p (0x7#4 ++ 0x0#4 ++ red ++ green ++ blue) = .command (.correctRgb red green blue)) ∧
  (∀ (s : State) (w : Word), s.params.wf = true → s.pending = [] → s.held = some w →
    w &&& 0xF0000000#32 = 0x70000000#32 → w &&& 0x0F000000#32 ≠ 0#32 →
    acceptOffer s = .next (s.rejectedWith 2)) ∧
  decode Params.default 0x708000FF#32 = .command (.correctRgb 128 0 255) ∧
  LookupResult.value ⟨rom 128, rom 0, rom 255⟩ = 0xFFF0002F9#36

/-- R130: INIT makes its 8 tokens pending and changes nothing else, mode register 1 before 2; BUSY is 1 until the
second END is accepted; its encoding, its rejection and the example. The BUSY clause runs on an empty agenda with
the fair transport of log 3: that order is the model's choice. -/
def Obligations.InitEmitsModeWrites : Prop :=
  (∀ (s : State), s.params.wf = true → s.pending = [] →
    ∃ t ts, exec .init s = .next t ∧
      ts = [.beginTxn s.params.devAddr, .byte 0x00, .byte s.params.mode1Init, .endTxn,
        .beginTxn s.params.devAddr, .byte 0x01, .byte s.params.mode2Init, .endTxn] ∧
      t = { s with held := none, pending := ts } ∧ BusyUntilLastEnd t ts) ∧
  (∀ (p : Params), decode p 0x10000000#32 = .command .init) ∧
  (∀ (s : State) (w : Word), s.params.wf = true → s.pending = [] → s.held = some w →
    w &&& 0xF0000000#32 = 0x10000000#32 → w &&& 0x0FFFFFFF#32 ≠ 0#32 →
    acceptOffer s = .next (s.rejectedWith 2)) ∧
  tokensOf Params.default .init = [.beginTxn 0x40, .byte 0x00, .byte 0x20, .endTxn, .beginTxn 0x40, .byte 0x01,
    .byte 0x04, .endTxn]

/-- R136: SETALL.GREY makes the transactions of all N groups pending, ascending, every channel at the level, and
changes nothing else; BUSY is 1 until the last END; its encoding, its rejection, the corner levels and the
example. The BUSY clause runs on an empty agenda with the fair transport of log 3: that order is the model's
choice. -/
def Obligations.SetallGreyEmitsAllGroups : Prop :=
  (∀ (s : State) (level : Byte), s.params.wf = true → s.pending = [] →
    ∃ t ts, exec (.setallGrey level) s = .next t ∧
      ts = (List.range s.params.groups).flatMap (fun g =>
        groupByArithmetic s.params g (List.replicate s.params.channels level)) ∧
      t = { s with held := none, pending := ts } ∧ BusyUntilLastEnd t ts) ∧
  (∀ (p : Params) (level : Byte),
    decode p (0x2#4 ++ 0x0#4 ++ level ++ 0x00#8 ++ 0x00#8) = .command (.setallGrey level)) ∧
  (∀ (s : State) (w : Word), s.params.wf = true → s.pending = [] → s.held = some w →
    w &&& 0xF0000000#32 = 0x20000000#32 → w &&& 0x0F00FFFF#32 ≠ 0#32 →
    acceptOffer s = .next (s.rejectedWith 2)) ∧
  (∀ phase : Tick, (pwmPair phase (rom 0)).off = phase ∧ (pwmPair phase (rom 255)).off = phase - 1) ∧
  ((tokensOf Params.default (.setallGrey 255)).drop 15).take 15 =
    [.beginTxn 0x40, .byte 0x12, .byte 0x33, .byte 0x03, .byte 0x32, .byte 0x03, .byte 0x33, .byte 0x03, .byte 0x32,
      .byte 0x03, .byte 0x33, .byte 0x03, .byte 0x32, .byte 0x03, .endTxn]

/-- R137: SETALL.RGB makes the transactions of all N groups pending, ascending, red, green, blue in each, and
changes nothing else; BUSY is 1 until the last END; its encoding, its two rejections and the example. The BUSY
clause runs on an empty agenda with the fair transport of log 3, the model's choice, and the exec clause with cause
3 rests on log 14, the model's inference. -/
def Obligations.SetallRgbEmitsAllGroups : Prop :=
  (∀ (s : State) (red green blue : Byte), s.params.wf = true → s.params.channels = 3 → s.pending = [] →
    ∃ t ts, exec (.setallRgb red green blue) s = .next t ∧
      ts = (List.range s.params.groups).flatMap (fun g => groupByArithmetic s.params g [red, green, blue]) ∧
      t = { s with held := none, pending := ts } ∧ BusyUntilLastEnd t ts) ∧
  (∀ (p : Params) (red green blue : Byte), p.channels ≠ 1 →
    decode p (0x3#4 ++ 0x0#4 ++ red ++ green ++ blue) = .command (.setallRgb red green blue)) ∧
  (∀ (s : State) (w : Word), s.params.wf = true → s.pending = [] → s.held = some w →
    w &&& 0xF0000000#32 = 0x30000000#32 → w &&& 0x0F000000#32 ≠ 0#32 →
    acceptOffer s = .next (s.rejectedWith 2)) ∧
  (∀ (s : State) (red green blue : Byte), s.params.wf = true → s.params.channels = 1 → s.pending = [] →
    exec (.setallRgb red green blue) s = .next (s.rejectedWith 3)) ∧
  (tokensOf Params.default (.setallRgb 128 0 255)).length = 75 ∧
  (tokensOf Params.default (.setallRgb 128 0 255)).drop 60 =
    [.beginTxn 0x40, .byte 0x36, .byte 0xCC, .byte 0x0C, .byte 0xC5, .byte 0x0F, .byte 0xCC, .byte 0x0C, .byte 0xCC,
      .byte 0x0C, .byte 0xCC, .byte 0x0C, .byte 0xCB, .byte 0x0C, .endTxn]

/-- R138: SETGRP.GREY makes one group's transaction pending and changes nothing else; BUSY is 1 until the END; its
encoding, its two rejections and the example. The BUSY clause runs on an empty agenda with the fair transport of
log 3, the model's choice, and the exec clause with cause 4 rests on log 14, the model's inference. -/
def Obligations.SetgrpGreyEmitsOneGroup : Prop :=
  (∀ (s : State) (group : GroupIndex) (level : Byte), s.params.wf = true → group.toNat < s.params.groups →
    s.pending = [] →
    ∃ t ts, exec (.setgrpGrey group level) s = .next t ∧
      ts = groupByArithmetic s.params group.toNat (List.replicate s.params.channels level) ∧
      ts.length = 4 * s.params.channels + 3 ∧
      t = { s with held := none, pending := ts } ∧ BusyUntilLastEnd t ts) ∧
  (∀ (p : Params) (group : GroupIndex) (level : Byte), group.toNat < p.groups →
    decode p (0x4#4 ++ group ++ level ++ 0x00#8 ++ 0x00#8) = .command (.setgrpGrey group level)) ∧
  (∀ (s : State) (w : Word), s.params.wf = true → s.pending = [] → s.held = some w →
    w &&& 0xF0000000#32 = 0x40000000#32 → w &&& 0x0000FFFF#32 ≠ 0#32 →
    acceptOffer s = .next (s.rejectedWith 2)) ∧
  (∀ (s : State) (group : GroupIndex) (level : Byte), s.params.wf = true → s.params.groups ≤ group.toNat →
    s.pending = [] → exec (.setgrpGrey group level) s = .next (s.rejectedWith 4)) ∧
  tokensOf Params.default (.setgrpGrey 2 0) =
    [.beginTxn 0x40, .byte 0x1E, .byte 0x66, .byte 0x06, .byte 0x66, .byte 0x06, .byte 0x66, .byte 0x06, .byte 0x66,
      .byte 0x06, .byte 0x66, .byte 0x06, .byte 0x66, .byte 0x06, .endTxn]

/-- R139: SETGRP.RGB makes one group's transaction of 15 tokens pending and changes nothing else; BUSY is 1 until
the END; its encoding, its two rejections with cause 3 before cause 4, equal channels as SETGRP.GREY, and the
example. The BUSY clause runs on an empty agenda with the fair transport of log 3, the model's choice, and the exec
clauses with causes 3 and 4 rest on log 14, the model's inference. -/
def Obligations.SetgrpRgbEmitsOneGroup : Prop :=
  (∀ (s : State) (group : GroupIndex) (red green blue : Byte), s.params.wf = true → s.params.channels = 3 →
    group.toNat < s.params.groups → s.pending = [] →
    ∃ t ts, exec (.setgrpRgb group red green blue) s = .next t ∧
      ts = groupByArithmetic s.params group.toNat [red, green, blue] ∧ ts.length = 15 ∧
      t = { s with held := none, pending := ts } ∧ BusyUntilLastEnd t ts) ∧
  (∀ (p : Params) (group : GroupIndex) (red green blue : Byte), p.channels ≠ 1 → group.toNat < p.groups →
    decode p (0x5#4 ++ group ++ red ++ green ++ blue) = .command (.setgrpRgb group red green blue)) ∧
  (∀ (s : State) (group : GroupIndex) (red green blue : Byte), s.params.wf = true → s.params.channels = 1 →
    s.pending = [] → exec (.setgrpRgb group red green blue) s = .next (s.rejectedWith 3)) ∧
  (∀ (s : State) (group : GroupIndex) (red green blue : Byte), s.params.wf = true → s.params.channels = 3 →
    s.params.groups ≤ group.toNat → s.pending = [] →
    exec (.setgrpRgb group red green blue) s = .next (s.rejectedWith 4)) ∧
  (∀ (p : Params) (group : GroupIndex) (level : Byte), p.channels = 3 →
    tokensOf p (.setgrpRgb group level level level) = tokensOf p (.setgrpGrey group level)) ∧
  tokensOf Params.default (.setgrpRgb 0 128 0 255) =
    [.beginTxn 0x40, .byte 0x06, .byte 0x00, .byte 0x00, .byte 0xF9, .byte 0x02, .byte 0x00, .byte 0x00, .byte 0x00,
      .byte 0x00, .byte 0x00, .byte 0x00, .byte 0xFF, .byte 0x0F, .endTxn]

/-- The frame of every command, by name of what is left alone: a command that completes changes no parameter, no
bit of ERR or CAUSE, nothing on the agenda, nothing observed and no byte of the device register space; a bus
command leaves RESULT, a lookup leaves PENDING. -/
def Obligations.CommandsLeaveTheRest : Prop :=
  ∀ (i : Instr) (s t : State), Instr.wf s.params i = true → exec i s = .next t →
    t.params = s.params ∧ t.err = s.err ∧ t.cause = s.cause ∧ t.agenda = s.agenda ∧
    t.transportFair = s.transportFair ∧ t.log = s.log ∧ t.freeReads = s.freeReads ∧
    (∀ offset : Nat, t.device.regs.read offset = s.device.regs.read offset) ∧
    (∀ offset : Byte, t.device.register offset = s.device.register offset) ∧
    (lookupOf i = none → t.result = s.result) ∧
    (tokensOf s.params i = [] → t.pending = s.pending)

/-- R140: the count of transactions and of tokens of every command an instance takes, with the defaults. -/
def Obligations.TokenCounts : Prop :=
  (∀ (p : Params) (i : Instr), p.wf = true → Instr.wf p i = true →
    (tokensOf p i).length =
      (match i with
       | .init => 8
       | .setallGrey _ => p.groups * (4 * p.channels + 3)
       | .setallRgb _ _ _ => 15 * p.groups
       | .setgrpGrey _ _ => 4 * p.channels + 3
       | .setgrpRgb _ _ _ _ => 15
       | .correct _ => 0
       | .correctRgb _ _ _ => 0) ∧
    (tokensOf p i).count .endTxn =
      (match i with
       | .init => 2
       | .setallGrey _ => p.groups
       | .setallRgb _ _ _ => p.groups
       | .setgrpGrey _ _ => 1
       | .setgrpRgb _ _ _ _ => 1
       | .correct _ => 0
       | .correctRgb _ _ _ => 0)) ∧
  (∀ l r g b, (tokensOf Params.default (.setallGrey l)).length = 75 ∧
    (tokensOf Params.default (.setallRgb r g b)).length = 75)

/-- R10, R51, R55: every command is a list of whole transactions for the instance's device, each of one byte for a
mode register, or of whole four-byte channel blocks aligned at 0x06 + 4m and ending at 0x45 at the latest. -/
def Obligations.TransactionsStayInTheMap : Prop :=
  ∀ (p : Params) (i : Instr), p.wf = true → Instr.wf p i = true →
    ∃ txns : List (Byte × List Byte),
      tokensOf p i = txns.flatMap (fun x =>
        .beginTxn p.devAddr :: .byte x.1 :: (x.2.map Token.byte ++ [.endTxn])) ∧
      ∀ x ∈ txns,
        ((x.1 = 0x00 ∨ x.1 = 0x01) ∧ x.2.length = 1) ∨
        (∃ m k, x.1.toNat = 0x06 + 4 * m ∧ 1 ≤ k ∧ x.2.length = 4 * k ∧ x.1.toNat + x.2.length ≤ 0x46)

/-- R58, R133, R134: what a command makes pending and what it writes to RESULT depend on the command and the
parameters alone: not on STATUS, on RESULT, on INIT, on an earlier command or on the device. -/
def Obligations.CommandsIgnoreHistory : Prop :=
  ∀ (i : Instr) (s t s' t' : State), s.params = t.params → s.pending = [] → t.pending = [] →
    Instr.wf s.params i = true → exec i s = .next s' → exec i t = .next t' →
    s'.pending = t'.pending ∧ (lookupOf i ≠ none → s'.result = t'.result)

/-! ## Rejection and status -/

/-- R161: a word that decodes as illegal is rejected in its acceptance step: ERR and CAUSE are set if ERR was 0 and
the offer is taken; nothing else changes. A command the instance does not take is rejected the same way by exec:
log 14, the model's inference. -/
def Obligations.IllegalCommandOnlyRecordsCause : Prop :=
  (∀ (s : State) (w : Word) (c : Cause), s.pending = [] → s.held = some w → decode s.params w = .illegal c →
    acceptOffer s = .next (s.rejectedWith c.code)) ∧
  (∀ (s : State) (i : Instr) (c : Cause), s.params.wf = true → s.pending = [] →
    illegality s.params i = some c → exec i s = .next (s.rejectedWith c.code))

/-- R25: the first rejection sets ERR and CAUSE, a later one changes neither, and no step but a rejection and a
reset changes either. -/
def Obligations.ErrAndCauseWritten : Prop :=
  (∀ (s t : State) (w : Word) (c : Cause), s.params.wf = true → s.acceptedWord = some w →
    decode s.params w = .illegal c → step s = .next t →
    t.err = true ∧ t.cause = (if s.err = true then s.cause else c.code)) ∧
  (∀ (s t : State) (rest : List Event), s.params.wf = true → s.agenda = .reset :: rest → step s = .next t →
    t.err = false ∧ t.cause = 0) ∧
  (∀ (s t : State), step s = .next t → t.err ≠ s.err ∨ t.cause ≠ s.cause →
    (∃ rest, s.agenda = .reset :: rest) ∨
      (s.err = false ∧ ∃ w c, s.acceptedWord = some w ∧ decode s.params w = .illegal c))

/-- R162, R163: each cause by its own condition on the word and the instance, the lowest code first, and its
code. -/
def Obligations.LowestCauseReported : Prop :=
  (∀ (p : Params) (w : Word),
    let reserved := w &&& 0xF0000000#32 = 0#32 ∨ w &&& 0x80000000#32 = 0x80000000#32
    let unusedBits : BitVec 32 :=
      if w.extractLsb' 28 4 = 1#4 then 0x0FFFFFFF#32
      else if w.extractLsb' 28 4 = 2#4 ∨ w.extractLsb' 28 4 = 6#4 then 0x0F00FFFF#32
      else if w.extractLsb' 28 4 = 3#4 ∨ w.extractLsb' 28 4 = 7#4 then 0x0F000000#32
      else if w.extractLsb' 28 4 = 4#4 then 0x0000FFFF#32
      else 0#32
    let unused := w &&& unusedBits ≠ 0#32
    let shape := (w.extractLsb' 28 4 = 3#4 ∨ w.extractLsb' 28 4 = 5#4) ∧ p.channels = 1
    let range := (w.extractLsb' 28 4 = 4#4 ∨ w.extractLsb' 28 4 = 5#4) ∧
      p.groups ≤ (w.extractLsb' 24 4).toNat
    (decode p w = .illegal .reservedOpcode ↔ reserved) ∧
    (decode p w = .illegal .sbzNonzero ↔ ¬reserved ∧ unused) ∧
    (decode p w = .illegal .shapeMismatch ↔ ¬reserved ∧ ¬unused ∧ shape) ∧
    (decode p w = .illegal .groupRange ↔ ¬reserved ∧ ¬unused ∧ ¬shape ∧ range)) ∧
  Cause.code .reservedOpcode = 1 ∧ Cause.code .sbzNonzero = 2 ∧ Cause.code .shapeMismatch = 3 ∧
  Cause.code .groupRange = 4

/-- R24: the fields of STATUS; a read of it has no side effect on the block, at any time, also while BUSY = 1. -/
def Obligations.StatusReadsItsFields : Prop :=
  (∀ s : State,
    (s.statusByte.extractLsb' 0 1 = 1#1 ↔ s.pending ≠ []) ∧
    (s.statusByte.extractLsb' 1 1 = 1#1 ↔ s.err = true) ∧
    s.statusByte.extractLsb' 2 2 = 0#2 ∧
    s.statusByte.extractLsb' 4 4 = s.cause) ∧
  (∀ (s : State) (rest : List Event), s.params.wf = true → s.agenda = .read .status :: rest →
    step s = .next { s with agenda := rest, log := s.log ++ [.status s.statusByte] }) ∧
  (∀ s : State, MachineInv s → s.err = false → s.cause = 0) ∧
  State.reset.statusByte = 0x00#8

/-- R26: the fields of RESULT, its read, and its only writers: a lookup, and reset, which makes it unwritten. A read
while it is unwritten goes on with an unspecified value and is recorded as the fault of U1: the model's form (log
12); the statement says of that value only that there is one. -/
def Obligations.ResultReadAndWriters : Prop :=
  (∀ r : LookupResult,
    r.value.extractLsb' 0 12 = r.res0 ∧ r.value.extractLsb' 12 12 = r.res1 ∧ r.value.extractLsb' 24 12 = r.res2) ∧
  (∀ (s : State) (rest : List Event) (r : LookupResult), s.params.wf = true →
    s.agenda = .read .result :: rest → s.result = some r →
    step s = .next { s with agenda := rest, log := s.log ++ [.result r.value] }) ∧
  (∀ (s : State) (rest : List Event), s.params.wf = true → s.agenda = .read .result :: rest → s.result = none →
    ∃ v, step s = .next { s with agenda := rest, freeReads := s.freeReads + 1,
                                 log := s.log ++ [.unwrittenResult v] }) ∧
  (∀ (s t : State), step s = .next t → t.result ≠ s.result →
    (∃ rest, s.agenda = .reset :: rest ∧ t.result = none) ∨
      ∃ i r, s.acceptedNow = some i ∧ lookupOf i = some r ∧ t.result = some r) ∧
  State.reset.result = none

/-! ## The machine -/

/-- R32: the registers after reset, with the parameters of this hardware (R6). -/
def Obligations.ResetState : Prop :=
  State.reset.busy = false ∧ State.reset.pending = [] ∧ State.reset.err = false ∧ State.reset.cause = 0 ∧
  State.reset.statusByte = 0 ∧ State.reset.result = none ∧
  State.reset.params = ⟨0x40, 5, 3, [0, 819, 1638, 2457, 3276], 0x20, 0x04⟩ ∧
  State.reset.params.wf = true

/-- R180, R182: reset at any time clears the registers, keeps the parameters and emits nothing. It cuts a
transaction exactly if a BEGIN was accepted and no END after it: then the stream is marked and no device register
is known; else the stream is as it was. -/
def Obligations.ResetAbandonsTheCommand : Prop :=
  ∀ (s : State) (rest : List Event), s.params.wf = true → s.agenda = .reset :: rest →
    ∃ t, step s = .next t ∧ t.params = s.params ∧ t.pending = [] ∧ t.err = false ∧ t.cause = 0 ∧ t.result = none ∧
      t.busy = false ∧ t.emitted = s.emitted ∧
      ((∃ before a after, s.log = before ++ .token (.beginTxn a) :: after ∧ .token .endTxn ∉ after ∧
          .unterminated ∉ after) →
        t.log = s.log ++ [.unterminated] ∧ ∀ offset, t.device.register offset = none) ∧
      ((¬∃ before a after, s.log = before ++ .token (.beginTxn a) :: after ∧ .token .endTxn ∉ after ∧
          .unterminated ∉ after) →
        t.log = s.log)

/-- The model's choices at reset: the word the host offers stays offered and the agenda goes on (logs 2 and 4), and
outside a transaction the device keeps its registers (log 9); the count of free values goes on (log 12). -/
def Obligations.ResetLeavesHostAndDevice : Prop :=
  ∀ (s : State) (rest : List Event), s.params.wf = true → s.agenda = .reset :: rest →
    ∃ t, step s = .next t ∧ t.held = s.held ∧ t.agenda = rest ∧ t.transportFair = s.transportFair ∧
      t.freeReads = s.freeReads ∧
      (s.transactionOpen = false → ∀ offset, t.device.register offset = s.device.register offset)

/-- R23: with BUSY = 0 the offered word is accepted in one step, rejected or performed; with BUSY = 1 the offer is
held; the host may offer a word, keep offering it, and withdraw it at any time. That exec of a command
on a busy block leaves the state as it is, is the model's choice (log 13), and so is a withdrawal with nothing held
(log 4). -/
def Obligations.OfferIsAcceptedOrHeld : Prop :=
  (∀ (s : State) (rest : List Event) (w : Word), s.params.wf = true → s.agenda = .accept :: rest → s.pending = [] →
    s.held = some w →
    step s =
      (match decode s.params w with
       | .illegal c => .next { s.rejectedWith c.code with agenda := rest }
       | .command i => exec i { s with agenda := rest })) ∧
  (∀ (s : State) (rest : List Event), s.params.wf = true → s.agenda = .accept :: rest → s.pending ≠ [] →
    step s = .next { s with agenda := rest }) ∧
  (∀ (i : Instr) (s : State), s.params.wf = true → s.pending ≠ [] → exec i s = .next s) ∧
  (∀ (s : State) (rest : List Event) (w : Word), s.params.wf = true → s.agenda = .present w :: rest →
    s.held = none ∨ s.held = some w → step s = .next { s with agenda := rest, held := some w }) ∧
  (∀ (s : State) (rest : List Event), s.params.wf = true → s.agenda = .withdraw :: rest →
    step s = .next { s with agenda := rest, held := none })

/-- The model's choice (log 4): a word presented while another is held takes its place. -/
def Obligations.NewOfferReplacesTheHeld : Prop :=
  ∀ (s : State) (rest : List Event) (w v : Word), s.params.wf = true → s.agenda = .present w :: rest →
    s.held = some v → step s = .next { s with agenda := rest, held := some w }

/-- A step with an offered word that decodes to a command is `exec` of that command: by the agenda's turn, by the
block's own turn (log 3), and for the word `withFetchWord` places (log 6). -/
def Obligations.StepRunsTheDecodedCommand : Prop :=
  (∀ (s : State) (w : Word) (i : Instr), s.params.wf = true → s.agenda = [] → s.pending = [] → s.held = some w →
    decode s.params w = .command i → step s = exec i s) ∧
  (∀ (s : State) (rest : List Event) (w : Word) (i : Instr), s.params.wf = true → s.agenda = .accept :: rest →
    s.held = some w → decode s.params w = .command i → step s = exec i { s with agenda := rest }) ∧
  (∀ (s : State) (w : Nat) (i : Instr), s.params.wf = true → s.pending = [] → Instr.wf s.params i = true →
    decodeTableWord 32 w = some i →
    step (s.withFetchWord 32 w) = exec i { s with held := some (BitVec.ofNat 32 w) })

/-- R27, R30: the transport accepts exactly the first pending token; the rest stays pending in order, and no
other register of the block changes. By the agenda's turn; on an empty agenda with a fair transport the block's own
turn is the transport's, which is the model's choice (log 3). -/
def Obligations.TransportTakesTheFirstToken : Prop :=
  (∀ (s : State) (rest : List Event) (t : Token) (ts : List Token), s.params.wf = true →
    s.agenda = .transportAccept :: rest → s.pending = t :: ts →
    step s = .next { s with agenda := rest, pending := ts, log := s.log ++ [.token t],
                            device := s.device.observe s.params.devAddr t }) ∧
  (∀ (s : State) (t : Token) (ts : List Token), s.params.wf = true → s.agenda = [] → s.transportFair = true →
    s.pending = t :: ts →
    step s = .next { s with pending := ts, log := s.log ++ [.token t],
                            device := s.device.observe s.params.devAddr t })

/-- R164: a transport that never accepts leaves the block without a step (the transport of log 3). -/
def Obligations.DeadTransportIsStuck : Prop :=
  ∀ (s : State) (k : Nat), s.params.wf = true → s.agenda = [] → s.pending ≠ [] → s.transportFair = false →
    step s = .fault .transportNeverAccepts ∧ runFrom (k + 1) s = .fault .transportNeverAccepts ∧ s.busy = true

/-- R6, R111: an instance whose parameters break the legal values is refused, by every step and every command; the
conditions, one by one. -/
def Obligations.IllFormedInstanceRefused : Prop :=
  (∀ (s : State) (i : Instr), s.params.wf = false →
    step s = .refused .illFormedInstance ∧ exec i s = .refused .illFormedInstance) ∧
  (∀ p : Params, p.wf = true ↔
    1 ≤ p.groups ∧ (p.channels = 1 ∨ p.channels = 3) ∧ p.groups * p.channels ≤ 16 ∧
      p.phase.length = p.groups ∧
      ∀ g, g + 1 < p.groups → (p.phase.getD g 0).toNat < (p.phase.getD (g + 1) 0).toNat)

/-- R160, R164: a step of a legal instance stops in one case only, with a token pending and a transport that accepts
none any more (log 3), and no command of it stops at all. That a read of an unwritten RESULT goes on (log 12) and that
exec of a command on a busy block answers the state as it is (log 13) are the model's choices, and that exec of a
command the instance does not take is its rejection (log 14) is the model's inference. -/
def Obligations.OnlyADeadTransportStops : Prop :=
  (∀ s : State, s.params.wf = true →
    ((∃ t, step s = .next t) ∨
      (s.agenda = [] ∧ s.pending ≠ [] ∧ s.transportFair = false ∧ step s = .fault .transportNeverAccepts))) ∧
  (∀ (i : Instr) (s : State), s.params.wf = true → ∃ t, exec i s = .next t)

/-- R6: no step changes a parameter. -/
def Obligations.ParametersNeverChange : Prop :=
  ∀ (k : Nat) (s t : State), runFrom k s = .next t → t.params = s.params

/-- The state after reset meets the invariant, and no command is in progress in it. -/
def Obligations.ResetMeetsTheInvariant : Prop :=
  MachineInv State.reset ∧ OneCommand State.reset

/-- Every step keeps the invariant: the instance is legal, STATUS is coherent, accepted and pending tokens make
whole transactions but for marked cuts, and the device register space is canonical. -/
def Obligations.StepKeepsTheInvariant : Prop :=
  ∀ s t : State, MachineInv s → step s = .next t → MachineInv t

/-- R23, R59: every step keeps what is pending the rest of one legal command, the tokens before it the last the
transport accepted. -/
def Obligations.StepKeepsOneCommand : Prop :=
  ∀ s t : State, OneCommand s → step s = .next t → OneCommand t

/-- R59: without a reset, what the transport has received and what is pending grow by exactly the tokens of the
accepted commands, command after command, with none dropped, repeated, reordered or interleaved. -/
def Obligations.TokensFollowTheAcceptedCommands : Prop :=
  ∀ (k : Nat) (s t : State), .reset ∉ s.agenda → runFrom k s = .next t →
    t.emitted ++ t.pending = s.emitted ++ s.pending ++ (acceptedIn k s).flatMap (tokensOf s.params)

/-- R30, R140, R190: a command offered to an idle block with a fair transport and nothing else on the agenda
completes after its acceptance and as many steps as it has tokens; BUSY is 1 in between and only then; the
transport receives its tokens and nothing else; STATUS and RESULT are as the command leaves them. That the block
runs on alone on an empty agenda is the model's choice (log 3). -/
def Obligations.CommandCompletes : Prop :=
  ∀ (s : State) (i : Instr), s.params.wf = true → Instr.wf s.params i = true → s.pending = [] → s.agenda = [] →
    s.transportFair = true → s.held = some (encode i) →
    (∀ k ≤ (tokensOf s.params i).length,
      ∃ u, runFrom (1 + k) s = .next u ∧ u.busy = decide (k < (tokensOf s.params i).length) ∧
        u.emitted = s.emitted ++ (tokensOf s.params i).take k ∧ u.held = none ∧ u.err = s.err ∧ u.cause = s.cause ∧
        u.result = (match lookupOf i with | some r => some r | none => s.result))

/-- R57: a whole transaction addressed to the device, once INIT has completed, writes its data bytes to the
registers from its start register on, and no other register (logs 8 to 11: the model's reading of the device). -/
def Obligations.TransactionWritesConsecutiveRegisters : Prop :=
  ∀ (d : Device) (addr : DevAddr) (r : Byte) (ds : List Byte), d.initDone = true → d.bus = .idle → ds ≠ [] →
    r.toNat + ds.length ≤ 256 →
    ∃ d', (Token.beginTxn addr :: .byte r :: (ds.map Token.byte ++ [.endTxn])).foldl (Device.observe addr) d = d' ∧
      d'.bus = .idle ∧ d'.initDone = true ∧
      ∀ offset : Byte, d'.register offset =
        (if r.toNat ≤ offset.toNat ∧ offset.toNat < r.toNat + ds.length then ds[offset.toNat - r.toNat]?
         else d.register offset)

/-- R130, R184: INIT, run to its end with a fair transport, readies the device: its two mode registers hold the
instance's bytes, and registers known before keep theirs (logs 8 to 11: the model's reading of the device; the run on
an empty agenda is log 3, the model's choice). -/
def Obligations.InitReadiesTheDevice : Prop :=
  ∀ s : State, s.params.wf = true → s.pending = [] → s.agenda = [] → s.transportFair = true →
    s.held = some (encode .init) → s.device.bus = .idle →
    ∃ t, runFrom 9 s = .next t ∧ t.pending = [] ∧ t.device.bus = .idle ∧ t.device.initDone = true ∧
      t.device.register 0x00 = some s.params.mode1Init ∧ t.device.register 0x01 = some s.params.mode2Init ∧
      ∀ offset : Byte, 2 ≤ offset.toNat → s.device.initDone = true →
        t.device.register offset = s.device.register offset

/-- R52, R57, R138, R139: a SETGRP command, run to its end with a fair transport on a ready device, leaves in the
group's registers the four bytes of each channel's pair, and every other register as it was (logs 8 to 11: the
model's reading of the device; the run on an empty agenda is log 3, the model's choice). -/
def Obligations.SetgrpReachesItsRegistersOnly : Prop :=
  ∀ (s : State) (i : Instr) (group : GroupIndex) (levels : List Byte), s.params.wf = true →
    Instr.wf s.params i = true →
    ((∃ l, i = .setgrpGrey group l ∧ levels = List.replicate s.params.channels l) ∨
      (∃ r g b, i = .setgrpRgb group r g b ∧ levels = [r, g, b])) →
    s.pending = [] → s.agenda = [] → s.transportFair = true → s.held = some (encode i) →
    s.device.bus = .idle → s.device.initDone = true →
    ∃ t, runFrom (1 + (4 * s.params.channels + 3)) s = .next t ∧ t.pending = [] ∧ t.device.initDone = true ∧
      (∀ (k j : Nat) (l : Byte), levels[k]? = some l → j < 4 →
        t.device.register (BitVec.ofNat 8 (0x06 + 4 * s.params.channels * group.toNat + 4 * k + j)) =
          (channelByArithmetic s.params group.toNat l)[j]?) ∧
      (∀ offset : Byte,
        offset.toNat < 0x06 + 4 * s.params.channels * group.toNat ∨
          0x06 + 4 * s.params.channels * (group.toNat + 1) ≤ offset.toNat →
        t.device.register offset = s.device.register offset)

/-- R57, R182, R184: no register of the device is claimed while INIT has not completed since the device lost its
registers; the device's own reset loses them (logs 9 and 10 are the model's reading). -/
def Obligations.NoDeviceClaimBeforeInit : Prop :=
  (∀ (d : Device) (offset : Byte), d.initDone = false → d.register offset = none) ∧
  (∀ (s : State) (rest : List Event), s.params.wf = true → s.agenda = .deviceReset :: rest →
    ∃ t, step s = .next t ∧ t = { s with agenda := rest, device := t.device } ∧
      ∀ offset, t.device.register offset = none)

/-- R26, R186, with the treatment `fault` of U1: a read of an unwritten RESULT, and nothing else, records a fault; what
is recorded stays through every run, reset or not; nothing is recorded at reset (the form is the model's, log 12). -/
def Obligations.UnwrittenReadStaysRecorded : Prop :=
  State.reset.faultRecorded = false ∧
  (∀ s t : State, step s = .next t → s.faultRecorded = false →
    (t.faultRecorded = true ↔ (∃ rest, s.agenda = .read .result :: rest) ∧ s.result = none)) ∧
  (∀ (k : Nat) (s t : State), s.faultRecorded = true → runFrom k s = .next t → t.faultRecorded = true)
end

