-- ==== Sys2Proof/Laws/Decode.lean ====
section
/-! SUPPORT. The fields of a word: a word is the concatenation of its fields, and masks act field by field. -/

namespace Sys2Proof

@[simp] theorem opField_assembleFields (op : BitVec 4) (grp : GroupIndex) (a b c : Byte) :
    opField (assembleFields op grp a b c) = op := by
  apply BitVec.eq_of_getLsbD_eq
  intro i hi
  simp only [opField, assembleFields, BitVec.getLsbD_extractLsb', BitVec.getLsbD_append]
  have h1 : ¬28 + i < 8 := by omega
  have h2 : ¬28 + i - 8 < 8 := by omega
  have h3 : ¬28 + i - 8 - 8 < 8 := by omega
  have h4 : ¬28 + i - 8 - 8 - 8 < 4 := by omega
  have h5 : 28 + i - 8 - 8 - 8 - 4 = i := by omega
  simp [h1, h2, h3, h4, h5, hi]

@[simp] theorem grpField_assembleFields (op : BitVec 4) (grp : GroupIndex) (a b c : Byte) :
    grpField (assembleFields op grp a b c) = grp := by
  apply BitVec.eq_of_getLsbD_eq
  intro i hi
  simp only [grpField, assembleFields, BitVec.getLsbD_extractLsb', BitVec.getLsbD_append]
  have h1 : ¬24 + i < 8 := by omega
  have h2 : ¬24 + i - 8 < 8 := by omega
  have h3 : ¬24 + i - 8 - 8 < 8 := by omega
  have h4 : 24 + i - 8 - 8 - 8 = i := by omega
  simp [h1, h2, h3, h4, hi]

@[simp] theorem aField_assembleFields (op : BitVec 4) (grp : GroupIndex) (a b c : Byte) :
    aField (assembleFields op grp a b c) = a := by
  apply BitVec.eq_of_getLsbD_eq
  intro i hi
  simp only [aField, assembleFields, BitVec.getLsbD_extractLsb', BitVec.getLsbD_append]
  have h1 : ¬16 + i < 8 := by omega
  have h2 : ¬16 + i - 8 < 8 := by omega
  have h3 : 16 + i - 8 - 8 = i := by omega
  simp [h1, h2, h3, hi]

@[simp] theorem bField_assembleFields (op : BitVec 4) (grp : GroupIndex) (a b c : Byte) :
    bField (assembleFields op grp a b c) = b := by
  apply BitVec.eq_of_getLsbD_eq
  intro i hi
  simp only [bField, assembleFields, BitVec.getLsbD_extractLsb', BitVec.getLsbD_append]
  have h1 : ¬8 + i < 8 := by omega
  have h2 : 8 + i - 8 = i := by omega
  simp [h1, h2, hi]

@[simp] theorem cField_assembleFields (op : BitVec 4) (grp : GroupIndex) (a b c : Byte) :
    cField (assembleFields op grp a b c) = c := by
  apply BitVec.eq_of_getLsbD_eq
  intro i hi
  simp only [cField, assembleFields, BitVec.getLsbD_extractLsb', BitVec.getLsbD_append]
  simp [hi]

/-- A word is the concatenation of its five fields (R70). -/
theorem assembleFields_fields (w : Word) :
    assembleFields (opField w) (grpField w) (aField w) (bField w) (cField w) = w := by
  apply BitVec.eq_of_getLsbD_eq
  intro i hi
  simp only [opField, grpField, aField, bField, cField, assembleFields, BitVec.getLsbD_append,
    BitVec.getLsbD_extractLsb']
  by_cases h1 : i < 8
  · simp [h1]
  · by_cases h2 : i - 8 < 8
    · simp [h1, h2]; congr 1; omega
    · by_cases h3 : i - 8 - 8 < 8
      · simp [h1, h2, h3]; congr 1; omega
      · by_cases h4 : i - 8 - 8 - 8 < 4
        · simp [h1, h2, h3, h4]; congr 1; omega
        · have h5 : i - 8 - 8 - 8 - 4 < 4 := by omega
          simp [h1, h2, h3, h4, h5]; congr 1; omega

/-- Two words are equal exactly if their fields are. -/
theorem assembleFields_inj {op op' : BitVec 4} {grp grp' : GroupIndex} {a a' b b' c c' : Byte} :
    assembleFields op grp a b c = assembleFields op' grp' a' b' c' ↔
      op = op' ∧ grp = grp' ∧ a = a' ∧ b = b' ∧ c = c' := by
  constructor
  · intro h
    refine ⟨?_, ?_, ?_, ?_, ?_⟩
    · simpa using congrArg opField h
    · simpa using congrArg grpField h
    · simpa using congrArg aField h
    · simpa using congrArg bField h
    · simpa using congrArg cField h
  · rintro ⟨rfl, rfl, rfl, rfl, rfl⟩; rfl

/-- A mask acts on each field. -/
theorem assembleFields_and (op op' : BitVec 4) (grp grp' : GroupIndex) (a a' b b' c c' : Byte) :
    assembleFields op grp a b c &&& assembleFields op' grp' a' b' c' =
      assembleFields (op &&& op') (grp &&& grp') (a &&& a') (b &&& b') (c &&& c') := by
  apply BitVec.eq_of_getLsbD_eq
  intro i _
  rw [BitVec.getLsbD_and]
  simp only [assembleFields, BitVec.getLsbD_append, BitVec.getLsbD_and]
  split_ifs <;> rfl

/-- The masked bits of a word are a match exactly if its masked fields are the match's. -/
theorem masked_eq_iff (w : Word) (op op' : BitVec 4) (grp grp' : GroupIndex) (a a' b b' c c' : Byte) :
    w &&& assembleFields op grp a b c = assembleFields op' grp' a' b' c' ↔
      opField w &&& op = op' ∧ grpField w &&& grp = grp' ∧ aField w &&& a = a' ∧ bField w &&& b = b' ∧
        cField w &&& c = c' := by
  rw [← assembleFields_inj, ← assembleFields_and, assembleFields_fields]

/-- What `decode` adds to the bit pattern (R80). -/
theorem decode_eq_command {p : Params} {w : Word} {i : Instr} :
    decode p w = .command i ↔ decodePattern w = .command i ∧ illegality p i = none := by
  unfold decode
  split
  · rename_i hd; simp [hd]
  · rename_i j hd
    rw [hd]
    split
    · rename_i hl
      constructor
      · intro h; cases h
      · rintro ⟨h, hn⟩; cases h; simp [hl] at hn
    · rename_i hl
      constructor
      · intro h; cases h; exact ⟨rfl, hl⟩
      · rintro ⟨h, -⟩; exact h

/-- A word whose pattern is a command the instance does not take is illegal with that cause (R80). -/
theorem decode_of_illegality {p : Params} {w : Word} {i : Instr} {c : Cause} (hd : decodePattern w = .command i)
    (hl : illegality p i = some c) : decode p w = .illegal c := by
  simp [decode, hd, hl]

/-- A word whose pattern is illegal is illegal in every instance (R80). -/
theorem decode_of_pattern_illegal {p : Params} {w : Word} {c : Cause} (hd : decodePattern w = .illegal c) :
    decode p w = .illegal c := by
  simp [decode, hd]

/-- Decoding the pattern of opcode 1: INIT, every other field zero (R73). -/
theorem decodePattern_of_op1 {w : Word} (h : opField w = 1#4) :
    decodePattern w =
      if grpField w = 0 ∧ aField w = 0 ∧ bField w = 0 ∧ cField w = 0 then .command .init
      else .illegal .sbzNonzero := by
  simp [decodePattern, h, ifUnusedZero, and_assoc]

/-- Opcode 2: SETALL.GREY. -/
theorem decodePattern_of_op2 {w : Word} (h : opField w = 2#4) :
    decodePattern w =
      if grpField w = 0 ∧ bField w = 0 ∧ cField w = 0 then .command (.setallGrey (aField w))
      else .illegal .sbzNonzero := by
  simp [decodePattern, h, ifUnusedZero, and_assoc]

/-- Opcode 3: SETALL.RGB. -/
theorem decodePattern_of_op3 {w : Word} (h : opField w = 3#4) :
    decodePattern w =
      if grpField w = 0 then .command (.setallRgb (aField w) (bField w) (cField w)) else .illegal .sbzNonzero := by
  simp [decodePattern, h, ifUnusedZero]

/-- Opcode 4: SETGRP.GREY. -/
theorem decodePattern_of_op4 {w : Word} (h : opField w = 4#4) :
    decodePattern w =
      if bField w = 0 ∧ cField w = 0 then .command (.setgrpGrey (grpField w) (aField w))
      else .illegal .sbzNonzero := by
  simp [decodePattern, h, ifUnusedZero]

/-- Opcode 5: SETGRP.RGB. -/
theorem decodePattern_of_op5 {w : Word} (h : opField w = 5#4) :
    decodePattern w = .command (.setgrpRgb (grpField w) (aField w) (bField w) (cField w)) := by
  simp [decodePattern, h]

/-- Opcode 6: CORRECT. -/
theorem decodePattern_of_op6 {w : Word} (h : opField w = 6#4) :
    decodePattern w =
      if grpField w = 0 ∧ bField w = 0 ∧ cField w = 0 then .command (.correct (aField w))
      else .illegal .sbzNonzero := by
  simp [decodePattern, h, ifUnusedZero, and_assoc]

/-- Opcode 7: CORRECT.RGB. -/
theorem decodePattern_of_op7 {w : Word} (h : opField w = 7#4) :
    decodePattern w =
      if grpField w = 0 then .command (.correctRgb (aField w) (bField w) (cField w)) else .illegal .sbzNonzero := by
  simp [decodePattern, h, ifUnusedZero]

/-- The other opcodes are reserved (R75). -/
theorem decodePattern_of_reserved {w : Word} (h : opField w = 0#4 ∨ 8 ≤ (opField w).toNat) :
    decodePattern w = .illegal .reservedOpcode := by
  have key : ∀ x : BitVec 4, x = 0#4 ∨ 8 ≤ x.toNat →
      x ≠ 1 ∧ x ≠ 2 ∧ x ≠ 3 ∧ x ≠ 4 ∧ x ≠ 5 ∧ x ≠ 6 ∧ x ≠ 7 := by decide
  obtain ⟨h1, h2, h3, h4, h5, h6, h7⟩ := key _ h
  simp only [decodePattern, if_neg h1, if_neg h2, if_neg h3, if_neg h4, if_neg h5, if_neg h6, if_neg h7]

/-- Every opcode is one of the above. -/
theorem opField_cases (x : BitVec 4) :
    (x = 0#4 ∨ 8 ≤ x.toNat) ∨ x = 1#4 ∨ x = 2#4 ∨ x = 3#4 ∨ x = 4#4 ∨ x = 5#4 ∨ x = 6#4 ∨ x = 7#4 := by
  revert x; decide

end Sys2Proof
end

