-- ==== Sys2Proof/Laws/Memory.lean ====
section
/-! SUPPORT. Memory: a read after a write, and that every operation keeps the canonical form. -/

namespace Sys2Proof.Machine

@[simp] theorem Memory.read_nil (x : Nat) : Memory.read [] x = none := rfl

/-- A read after a write to the same address gives the byte written. -/
@[simp] theorem Memory.read_write_same (m : Memory) (x : Nat) (v : Byte) : (m.write x v).read x = some v := by
  induction m with
  | nil => simp [Memory.write, Memory.read]
  | cons cell rest ih =>
    obtain ⟨a, b⟩ := cell
    simp only [Memory.write]
    split
    · simp [Memory.read]
    · split
      · simp [Memory.read]
      · rename_i hne
        simp only [Memory.read, ih]
        rw [if_neg (fun h => hne h.symm)]

/-- A write leaves every other address alone. -/
theorem Memory.read_write_other (m : Memory) {x y : Nat} (v : Byte) (h : y ≠ x) :
    (m.write x v).read y = m.read y := by
  have hx : ¬x = y := fun e => h e.symm
  induction m with
  | nil => simp [Memory.write, Memory.read, hx]
  | cons cell rest ih =>
    obtain ⟨a, b⟩ := cell
    simp only [Memory.write]
    split
    · simp [Memory.read, hx]
    · split
      · rename_i hxa
        subst hxa
        simp [Memory.read, hx]
      · simp only [Memory.read, ih]

/-- Where consecutive bytes were written, and where not. -/
theorem Memory.read_writeBytes (m : Memory) (start : Nat) (ds : List Byte) (x : Nat) :
    (m.writeBytes start ds).read x =
      if start ≤ x ∧ x < start + ds.length then ds[x - start]? else m.read x := by
  induction ds generalizing m start with
  | nil =>
    have : ¬(start ≤ x ∧ x < start) := by omega
    simp [Memory.writeBytes, this]
  | cons d ds ih =>
    simp only [Memory.writeBytes, ih, List.length_cons]
    by_cases h1 : x = start
    · subst h1
      have a : ¬(x + 1 ≤ x ∧ x < x + 1 + ds.length) := by omega
      have b : x ≤ x ∧ x < x + (ds.length + 1) := by omega
      rw [if_neg a, if_pos b]; simp
    · by_cases h2 : start + 1 ≤ x ∧ x < start + 1 + ds.length
      · have b : start ≤ x ∧ x < start + (ds.length + 1) := by omega
        have e : x - start = (x - (start + 1)) + 1 := by omega
        rw [if_pos h2, if_pos b, e]; simp
      · have b : ¬(start ≤ x ∧ x < start + (ds.length + 1)) := by omega
        rw [if_neg h2, if_neg b, Memory.read_write_other m d h1]

theorem Memory.risingFrom_write (m : Memory) {low x : Nat} (v : Byte) (hx : low ≤ x)
    (h : Memory.risingFrom low m = true) : Memory.risingFrom low (m.write x v) = true := by
  induction m generalizing low with
  | nil => simp [Memory.write, Memory.risingFrom, hx]
  | cons cell rest ih =>
    obtain ⟨a, b⟩ := cell
    simp only [Memory.risingFrom, Bool.and_eq_true, decide_eq_true_eq] at h
    simp only [Memory.write]
    split
    · rename_i hlt
      simp only [Memory.risingFrom, Bool.and_eq_true, decide_eq_true_eq]
      exact ⟨hx, by omega, h.2⟩
    · split
      · rename_i he
        subst he
        simp only [Memory.risingFrom, Bool.and_eq_true, decide_eq_true_eq]
        exact ⟨hx, h.2⟩
      · simp only [Memory.risingFrom, Bool.and_eq_true, decide_eq_true_eq]
        exact ⟨h.1, ih (by omega) h.2⟩

theorem Memory.inSpace_write (m : Memory) {x : Nat} (v : Byte) (hx : x < 256) (h : Memory.inSpace m = true) :
    Memory.inSpace (m.write x v) = true := by
  induction m with
  | nil => simp [Memory.write, Memory.inSpace, hx]
  | cons cell rest ih =>
    obtain ⟨a, b⟩ := cell
    simp only [Memory.inSpace, List.all_cons, Bool.and_eq_true, decide_eq_true_eq] at h ih
    simp only [Memory.write]
    split
    · simp only [Memory.inSpace, List.all_cons, Bool.and_eq_true, decide_eq_true_eq]
      exact ⟨hx, h.1, h.2⟩
    · split
      · simp only [Memory.inSpace, List.all_cons, Bool.and_eq_true, decide_eq_true_eq]
        exact ⟨hx, h.2⟩
      · simp only [Memory.inSpace, List.all_cons, Bool.and_eq_true, decide_eq_true_eq]
        exact ⟨h.1, ih h.2⟩

/-- A write at an offset of the space keeps the canonical form. -/
theorem Memory.wf_write (m : Memory) {x : Nat} (v : Byte) (hx : x < 256) (h : m.wf = true) :
    (m.write x v).wf = true := by
  simp only [Memory.wf, Bool.and_eq_true] at h ⊢
  exact ⟨m.risingFrom_write v (by omega) h.1, m.inSpace_write v hx h.2⟩

/-- Consecutive writes inside the space keep the canonical form. -/
theorem Memory.wf_writeBytes (m : Memory) (start : Nat) (ds : List Byte) (hx : start + ds.length ≤ 256)
    (h : m.wf = true) : (m.writeBytes start ds).wf = true := by
  induction ds generalizing m start with
  | nil => exact h
  | cons d ds ih =>
    simp only [List.length_cons] at hx
    exact ih (m.write start d) (start + 1) (by omega) (m.wf_write d (by omega) h)

/-- What a finished transaction leaves is canonical. -/
theorem Device.wf_commit (d : Device) (start : Byte) (bytes : List Byte) (h : d.regs.wf = true) :
    (d.commit start bytes).wf = true := by
  unfold Device.commit
  split
  · rename_i hc
    exact Memory.wf_writeBytes _ _ _ hc.1 h
  · rfl

/-- Every token leaves the device register space canonical. -/
theorem Device.wf_observe (addr : DevAddr) (d : Device) (t : Token) (h : d.regs.wf = true) :
    (d.observe addr t).regs.wf = true := by
  cases t with
  | beginTxn a => exact h
  | byte b => cases hb : d.bus <;> simpa [Device.observe, hb] using h
  | endTxn =>
    cases hb : d.bus with
    | data start bytes => simpa [Device.observe, hb] using d.wf_commit start bytes h
    | idle => simpa [Device.observe, hb] using h
    | ignored => simpa [Device.observe, hb] using h
    | addressed => simpa [Device.observe, hb] using h

/-- The device register space after reset is canonical. -/
theorem Device.wf_unknown : Device.unknown.regs.wf = true := rfl

end Sys2Proof.Machine
end

