-- ==== Sys2Proof/Laws/PerInstr.lean ====
section
/-! SUPPORT. Per instruction: the bit pattern of its encoding decodes to it, and an instance rejects it exactly if
it is not well-formed there. -/

/-- The pattern of an encoding is the command (R74, R80). -/
def Sys2Proof.Laws.DecodeEncode.Statement (i : Sys2Proof.Instr) : Prop :=
  Sys2Proof.decodePattern (Sys2Proof.encode i) = .command i

/-- No cause of rejection exactly if well-formed (R76). -/
def Sys2Proof.Laws.IllegalityWf.Statement (i : Sys2Proof.Instr) : Prop :=
  ∀ p, Sys2Proof.illegality p i = none ↔ Sys2Proof.Instr.wf p i = true

namespace Sys2Proof.Laws.DecodeEncode

theorem init : Statement .init := by simp [Statement, encode, decodePattern, ifUnusedZero]

theorem setallGrey (level : Byte) : Statement (.setallGrey level) := by
  simp [Statement, encode, decodePattern, ifUnusedZero]

theorem setallRgb (red green blue : Byte) : Statement (.setallRgb red green blue) := by
  simp [Statement, encode, decodePattern, ifUnusedZero]

theorem setgrpGrey (group : GroupIndex) (level : Byte) : Statement (.setgrpGrey group level) := by
  simp [Statement, encode, decodePattern, ifUnusedZero]

theorem setgrpRgb (group : GroupIndex) (red green blue : Byte) : Statement (.setgrpRgb group red green blue) := by
  simp [Statement, encode, decodePattern]

theorem correct (level : Byte) : Statement (.correct level) := by
  simp [Statement, encode, decodePattern, ifUnusedZero]

theorem correctRgb (red green blue : Byte) : Statement (.correctRgb red green blue) := by
  simp [Statement, encode, decodePattern, ifUnusedZero]

end Sys2Proof.Laws.DecodeEncode

namespace Sys2Proof.Laws.IllegalityWf

theorem init : Statement .init := by simp [Statement, illegality, Instr.wf, Instr.shapeOk, Instr.groupOk]

theorem setallGrey (level : Byte) : Statement (.setallGrey level) := by
  simp [Statement, illegality, Instr.wf, Instr.shapeOk, Instr.groupOk]

theorem setallRgb (red green blue : Byte) : Statement (.setallRgb red green blue) := by
  simp [Statement, illegality, shapeCause, Instr.wf, Instr.shapeOk, Instr.groupOk]

theorem setgrpGrey (group : GroupIndex) (level : Byte) : Statement (.setgrpGrey group level) := by
  simp [Statement, illegality, groupCause, Instr.wf, Instr.shapeOk, Instr.groupOk]

theorem setgrpRgb (group : GroupIndex) (red green blue : Byte) : Statement (.setgrpRgb group red green blue) := by
  intro p
  by_cases h : p.channels = 1 <;>
    simp [illegality, shapeCause, groupCause, Instr.wf, Instr.shapeOk, Instr.groupOk, h]

theorem correct (level : Byte) : Statement (.correct level) := by
  simp [Statement, illegality, Instr.wf, Instr.shapeOk, Instr.groupOk]

theorem correctRgb (red green blue : Byte) : Statement (.correctRgb red green blue) := by
  simp [Statement, illegality, Instr.wf, Instr.shapeOk, Instr.groupOk]

end Sys2Proof.Laws.IllegalityWf

namespace Sys2Proof

theorem decodePattern_encode (i : Instr) : decodePattern (encode i) = .command i := by
  cases i with
  | init => exact Laws.DecodeEncode.init
  | setallGrey l => exact Laws.DecodeEncode.setallGrey l
  | setallRgb r g b => exact Laws.DecodeEncode.setallRgb r g b
  | setgrpGrey n l => exact Laws.DecodeEncode.setgrpGrey n l
  | setgrpRgb n r g b => exact Laws.DecodeEncode.setgrpRgb n r g b
  | correct l => exact Laws.DecodeEncode.correct l
  | correctRgb r g b => exact Laws.DecodeEncode.correctRgb r g b

theorem illegality_eq_none {p : Params} {i : Instr} : illegality p i = none ↔ Instr.wf p i = true := by
  cases i with
  | init => exact Laws.IllegalityWf.init p
  | setallGrey l => exact Laws.IllegalityWf.setallGrey l p
  | setallRgb r g b => exact Laws.IllegalityWf.setallRgb r g b p
  | setgrpGrey n l => exact Laws.IllegalityWf.setgrpGrey n l p
  | setgrpRgb n r g b => exact Laws.IllegalityWf.setgrpRgb n r g b p
  | correct l => exact Laws.IllegalityWf.correct l p
  | correctRgb r g b => exact Laws.IllegalityWf.correctRgb r g b p

end Sys2Proof
end

