-- ==== Sys2Proof/Laws/State.lean ====
section
/-! SUPPORT. One lemma per field per update of State, true by rfl; the rejection and the reset field by field. -/

namespace Sys2Proof.Machine

@[simp] theorem State.takeOffer_params (s : State) : s.takeOffer.params = s.params := rfl
@[simp] theorem State.takeOffer_err (s : State) : s.takeOffer.err = s.err := rfl
@[simp] theorem State.takeOffer_cause (s : State) : s.takeOffer.cause = s.cause := rfl
@[simp] theorem State.takeOffer_result (s : State) : s.takeOffer.result = s.result := rfl
@[simp] theorem State.takeOffer_pending (s : State) : s.takeOffer.pending = s.pending := rfl
@[simp] theorem State.takeOffer_held (s : State) : s.takeOffer.held = none := rfl
@[simp] theorem State.takeOffer_agenda (s : State) : s.takeOffer.agenda = s.agenda := rfl
@[simp] theorem State.takeOffer_transportFair (s : State) : s.takeOffer.transportFair = s.transportFair := rfl
@[simp] theorem State.takeOffer_log (s : State) : s.takeOffer.log = s.log := rfl
@[simp] theorem State.takeOffer_device (s : State) : s.takeOffer.device = s.device := rfl
@[simp] theorem State.takeOffer_freeReads (s : State) : s.takeOffer.freeReads = s.freeReads := rfl

@[simp] theorem State.startTokens_params (s : State) (ts : List Token) : (s.startTokens ts).params = s.params := rfl
@[simp] theorem State.startTokens_err (s : State) (ts : List Token) : (s.startTokens ts).err = s.err := rfl
@[simp] theorem State.startTokens_cause (s : State) (ts : List Token) : (s.startTokens ts).cause = s.cause := rfl
@[simp] theorem State.startTokens_result (s : State) (ts : List Token) : (s.startTokens ts).result = s.result := rfl
@[simp] theorem State.startTokens_pending (s : State) (ts : List Token) : (s.startTokens ts).pending = ts := rfl
@[simp] theorem State.startTokens_held (s : State) (ts : List Token) : (s.startTokens ts).held = s.held := rfl
@[simp] theorem State.startTokens_agenda (s : State) (ts : List Token) : (s.startTokens ts).agenda = s.agenda := rfl
@[simp] theorem State.startTokens_transportFair (s : State) (ts : List Token) : (s.startTokens ts).transportFair = s.transportFair := rfl
@[simp] theorem State.startTokens_log (s : State) (ts : List Token) : (s.startTokens ts).log = s.log := rfl
@[simp] theorem State.startTokens_device (s : State) (ts : List Token) : (s.startTokens ts).device = s.device := rfl
@[simp] theorem State.startTokens_freeReads (s : State) (ts : List Token) : (s.startTokens ts).freeReads = s.freeReads := rfl

@[simp] theorem State.writeResult_params (s : State) (r : LookupResult) : (s.writeResult r).params = s.params := rfl
@[simp] theorem State.writeResult_err (s : State) (r : LookupResult) : (s.writeResult r).err = s.err := rfl
@[simp] theorem State.writeResult_cause (s : State) (r : LookupResult) : (s.writeResult r).cause = s.cause := rfl
@[simp] theorem State.writeResult_result (s : State) (r : LookupResult) : (s.writeResult r).result = some r := rfl
@[simp] theorem State.writeResult_pending (s : State) (r : LookupResult) : (s.writeResult r).pending = s.pending := rfl
@[simp] theorem State.writeResult_held (s : State) (r : LookupResult) : (s.writeResult r).held = s.held := rfl
@[simp] theorem State.writeResult_agenda (s : State) (r : LookupResult) : (s.writeResult r).agenda = s.agenda := rfl
@[simp] theorem State.writeResult_transportFair (s : State) (r : LookupResult) : (s.writeResult r).transportFair = s.transportFair := rfl
@[simp] theorem State.writeResult_log (s : State) (r : LookupResult) : (s.writeResult r).log = s.log := rfl
@[simp] theorem State.writeResult_device (s : State) (r : LookupResult) : (s.writeResult r).device = s.device := rfl
@[simp] theorem State.writeResult_freeReads (s : State) (r : LookupResult) : (s.writeResult r).freeReads = s.freeReads := rfl

@[simp] theorem State.acceptToken_params (s : State) (t : Token) (rest : List Token) : (s.acceptToken t rest).params = s.params := rfl
@[simp] theorem State.acceptToken_err (s : State) (t : Token) (rest : List Token) : (s.acceptToken t rest).err = s.err := rfl
@[simp] theorem State.acceptToken_cause (s : State) (t : Token) (rest : List Token) : (s.acceptToken t rest).cause = s.cause := rfl
@[simp] theorem State.acceptToken_result (s : State) (t : Token) (rest : List Token) : (s.acceptToken t rest).result = s.result := rfl
@[simp] theorem State.acceptToken_pending (s : State) (t : Token) (rest : List Token) : (s.acceptToken t rest).pending = rest := rfl
@[simp] theorem State.acceptToken_held (s : State) (t : Token) (rest : List Token) : (s.acceptToken t rest).held = s.held := rfl
@[simp] theorem State.acceptToken_agenda (s : State) (t : Token) (rest : List Token) : (s.acceptToken t rest).agenda = s.agenda := rfl
@[simp] theorem State.acceptToken_transportFair (s : State) (t : Token) (rest : List Token) : (s.acceptToken t rest).transportFair = s.transportFair := rfl
@[simp] theorem State.acceptToken_log (s : State) (t : Token) (rest : List Token) : (s.acceptToken t rest).log = s.log ++ [.token t] := rfl
@[simp] theorem State.acceptToken_device (s : State) (t : Token) (rest : List Token) : (s.acceptToken t rest).device = s.device.observe s.params.devAddr t := rfl
@[simp] theorem State.acceptToken_freeReads (s : State) (t : Token) (rest : List Token) : (s.acceptToken t rest).freeReads = s.freeReads := rfl

@[simp] theorem State.clearRegisters_params (s : State) : s.clearRegisters.params = s.params := rfl
@[simp] theorem State.clearRegisters_err (s : State) : s.clearRegisters.err = false := rfl
@[simp] theorem State.clearRegisters_cause (s : State) : s.clearRegisters.cause = 0 := rfl
@[simp] theorem State.clearRegisters_result (s : State) : s.clearRegisters.result = none := rfl
@[simp] theorem State.clearRegisters_pending (s : State) : s.clearRegisters.pending = [] := rfl
@[simp] theorem State.clearRegisters_held (s : State) : s.clearRegisters.held = s.held := rfl
@[simp] theorem State.clearRegisters_agenda (s : State) : s.clearRegisters.agenda = s.agenda := rfl
@[simp] theorem State.clearRegisters_transportFair (s : State) : s.clearRegisters.transportFair = s.transportFair := rfl
@[simp] theorem State.clearRegisters_log (s : State) : s.clearRegisters.log = s.log := rfl
@[simp] theorem State.clearRegisters_device (s : State) : s.clearRegisters.device = s.device := rfl
@[simp] theorem State.clearRegisters_freeReads (s : State) : s.clearRegisters.freeReads = s.freeReads := rfl

@[simp] theorem State.readUnwritten_params (s : State) : s.readUnwritten.params = s.params := rfl
@[simp] theorem State.readUnwritten_err (s : State) : s.readUnwritten.err = s.err := rfl
@[simp] theorem State.readUnwritten_cause (s : State) : s.readUnwritten.cause = s.cause := rfl
@[simp] theorem State.readUnwritten_result (s : State) : s.readUnwritten.result = s.result := rfl
@[simp] theorem State.readUnwritten_pending (s : State) : s.readUnwritten.pending = s.pending := rfl
@[simp] theorem State.readUnwritten_held (s : State) : s.readUnwritten.held = s.held := rfl
@[simp] theorem State.readUnwritten_agenda (s : State) : s.readUnwritten.agenda = s.agenda := rfl
@[simp] theorem State.readUnwritten_transportFair (s : State) : s.readUnwritten.transportFair = s.transportFair := rfl
@[simp] theorem State.readUnwritten_device (s : State) : s.readUnwritten.device = s.device := rfl
@[simp] theorem State.readUnwritten_log (s : State) :
    s.readUnwritten.log = s.log ++ [.unwrittenResult (Config.unspecifiedResult s.freeReads)] := rfl
@[simp] theorem State.readUnwritten_freeReads (s : State) : s.readUnwritten.freeReads = s.freeReads + 1 := rfl

@[simp] theorem State.rejectedWith_params (s : State) (code : BitVec 4) : (s.rejectedWith code).params = s.params := rfl
@[simp] theorem State.rejectedWith_err (s : State) (code : BitVec 4) : (s.rejectedWith code).err = true := rfl
@[simp] theorem State.rejectedWith_cause (s : State) (code : BitVec 4) : (s.rejectedWith code).cause = if s.err then s.cause else code := rfl
@[simp] theorem State.rejectedWith_result (s : State) (code : BitVec 4) : (s.rejectedWith code).result = s.result := rfl
@[simp] theorem State.rejectedWith_pending (s : State) (code : BitVec 4) : (s.rejectedWith code).pending = s.pending := rfl
@[simp] theorem State.rejectedWith_held (s : State) (code : BitVec 4) : (s.rejectedWith code).held = none := rfl
@[simp] theorem State.rejectedWith_agenda (s : State) (code : BitVec 4) : (s.rejectedWith code).agenda = s.agenda := rfl
@[simp] theorem State.rejectedWith_transportFair (s : State) (code : BitVec 4) : (s.rejectedWith code).transportFair = s.transportFair := rfl
@[simp] theorem State.rejectedWith_log (s : State) (code : BitVec 4) : (s.rejectedWith code).log = s.log := rfl
@[simp] theorem State.rejectedWith_device (s : State) (code : BitVec 4) : (s.rejectedWith code).device = s.device := rfl
@[simp] theorem State.rejectedWith_freeReads (s : State) (code : BitVec 4) : (s.rejectedWith code).freeReads = s.freeReads := rfl

/-- The rejection of a command is the record update of R161. -/
theorem State.raiseIllegal_eq (s : State) (c : Cause) : s.raiseIllegal c = s.rejectedWith c.code := by
  unfold State.raiseIllegal State.recordCause State.rejectedWith State.takeOffer
  cases h : s.err <;> rfl

@[simp] theorem State.resetBlock_params (s : State) : s.resetBlock.params = s.params := by
  unfold State.resetBlock; split <;> rfl

@[simp] theorem State.resetBlock_held (s : State) : s.resetBlock.held = s.held := by
  unfold State.resetBlock; split <;> rfl

@[simp] theorem State.resetBlock_agenda (s : State) : s.resetBlock.agenda = s.agenda := by
  unfold State.resetBlock; split <;> rfl

@[simp] theorem State.resetBlock_transportFair (s : State) : s.resetBlock.transportFair = s.transportFair := by
  unfold State.resetBlock; split <;> rfl

@[simp] theorem State.resetBlock_freeReads (s : State) : s.resetBlock.freeReads = s.freeReads := by
  unfold State.resetBlock; split <;> rfl

@[simp] theorem State.resetBlock_pending (s : State) : s.resetBlock.pending = [] := by
  unfold State.resetBlock; split <;> rfl

@[simp] theorem State.resetBlock_err (s : State) : s.resetBlock.err = false := by
  unfold State.resetBlock; split <;> rfl

@[simp] theorem State.resetBlock_cause (s : State) : s.resetBlock.cause = 0 := by
  unfold State.resetBlock; split <;> rfl

@[simp] theorem State.resetBlock_result (s : State) : s.resetBlock.result = none := by
  unfold State.resetBlock; split <;> rfl

/-- BUSY is PENDING not being empty (R24). -/
theorem State.busy_eq_false {s : State} : s.busy = false ↔ s.pending = [] := by
  unfold State.busy; cases s.pending <;> simp

theorem State.busy_eq_true {s : State} : s.busy = true ↔ s.pending ≠ [] := by
  unfold State.busy; cases s.pending <;> simp

end Sys2Proof.Machine
end

