-- ==== Sys2Proof/Laws/Ops.lean ====
section
/-! SUPPORT. What the shared operations and a step can do, said once: `perform` and `exec` by cases, the turns of the
command interface and of the transport, and the inversion of `step`. -/

namespace Sys2Proof.Machine

/-- The state after a command an idle block performs. -/
def State.performed (s : State) (i : Instr) : State :=
  { s with held := none, pending := tokensOf s.params i, result := (lookupOf i).or s.result }

/-- Every command's meaning is `perform` of its tokens and its lookup. -/
theorem exec_eq_perform (i : Instr) (s : State) :
    ∃ effect : State → State, exec i s = perform i effect s ∧
      (s.pending = [] → effect s.takeOffer = s.performed i) := by
  cases i with
  | init => exact ⟨fun t => t.startTokens (initTokens t.params), rfl, fun _ => rfl⟩
  | setallGrey l =>
    exact ⟨fun t => t.startTokens (allGroupsTxns t.params (greyLevels t.params l)), rfl, fun _ => rfl⟩
  | setallRgb r g b => exact ⟨fun t => t.startTokens (allGroupsTxns t.params (rgbLevels r g b)), rfl, fun _ => rfl⟩
  | setgrpGrey n l =>
    exact ⟨fun t => t.startTokens (groupTxn t.params n.toNat (greyLevels t.params l)), rfl, fun _ => rfl⟩
  | setgrpRgb n r g b =>
    exact ⟨fun t => t.startTokens (groupTxn t.params n.toNat (rgbLevels r g b)), rfl, fun _ => rfl⟩
  | correct l =>
    refine ⟨fun t => t.writeResult ⟨rom l, 0, 0⟩, rfl, fun h => ?_⟩
    simp [State.performed, State.writeResult, State.takeOffer, tokensOf, lookupOf, ← h]
  | correctRgb r g b =>
    refine ⟨fun t => t.writeResult ⟨rom r, rom g, rom b⟩, rfl, fun h => ?_⟩
    simp [State.performed, State.writeResult, State.takeOffer, tokensOf, lookupOf, ← h]

/-- A command offered to a busy block is held (R23). -/
theorem exec_of_busy (i : Instr) {s : State} (hw : s.params.wf = true) (hb : s.busy = true) : exec i s = .next s := by
  obtain ⟨effect, he, -⟩ := exec_eq_perform i s
  simp [he, perform, hw, hb]

/-- A command the instance does not take is rejected (R161, R162). -/
theorem exec_of_illegality {i : Instr} {s : State} {c : Cause} (hw : s.params.wf = true) (hp : s.pending = [])
    (hl : illegality s.params i = some c) : exec i s = .next (s.rejectedWith c.code) := by
  obtain ⟨effect, he, -⟩ := exec_eq_perform i s
  simp [he, perform, hw, State.busy_eq_false.2 hp, hl, State.raiseIllegal_eq]

/-- A command the instance takes is performed by an idle block (R30). -/
theorem exec_of_wf {i : Instr} {s : State} (hw : s.params.wf = true) (hp : s.pending = [])
    (hi : Instr.wf s.params i = true) : exec i s = .next (s.performed i) := by
  obtain ⟨effect, he, hs⟩ := exec_eq_perform i s
  simp [he, perform, hw, State.busy_eq_false.2 hp, illegality_eq_none.2 hi, hs hp]

/-- No meaning runs in an ill-formed instance (R6). -/
theorem exec_of_ill_formed (i : Instr) {s : State} (hw : s.params.wf = false) :
    exec i s = .refused .illFormedInstance := by
  obtain ⟨effect, he, -⟩ := exec_eq_perform i s
  simp [he, perform, hw]

/-- What a completed command is: held, rejected, or performed. -/
theorem exec_next {i : Instr} {s t : State} (h : exec i s = .next t) :
    s.params.wf = true ∧
      ((s.pending ≠ [] ∧ t = s) ∨
        (s.pending = [] ∧ ∃ c, illegality s.params i = some c ∧ t = s.rejectedWith c.code) ∨
        (s.pending = [] ∧ Instr.wf s.params i = true ∧ t = s.performed i)) := by
  by_cases hw : s.params.wf = true
  · refine ⟨hw, ?_⟩
    by_cases hp : s.pending = []
    · cases hl : illegality s.params i with
      | some c =>
        rw [exec_of_illegality hw hp hl] at h
        cases h
        exact .inr (.inl ⟨hp, c, rfl, rfl⟩)
      | none =>
        have hi := illegality_eq_none.1 hl
        rw [exec_of_wf hw hp hi] at h
        cases h
        exact .inr (.inr ⟨hp, hi, rfl⟩)
    · rw [exec_of_busy i hw (State.busy_eq_true.2 hp)] at h
      cases h
      exact .inl ⟨hp, rfl⟩
  · rw [exec_of_ill_formed i (by simpa using hw)] at h
    cases h

/-- The command interface's turn, by cases. -/
theorem acceptOffer_cases (s : State) (hw : s.params.wf = true) :
    (s.held = none ∧ acceptOffer s = .next s) ∨
      (s.pending ≠ [] ∧ acceptOffer s = .next s) ∨
      (∃ w c, s.held = some w ∧ s.pending = [] ∧ decode s.params w = .illegal c ∧
        acceptOffer s = .next (s.rejectedWith c.code)) ∨
      (∃ w i, s.held = some w ∧ s.pending = [] ∧ decode s.params w = .command i ∧ Instr.wf s.params i = true ∧
        acceptOffer s = .next (s.performed i)) := by
  cases hh : s.held with
  | none => exact .inl ⟨rfl, by simp [acceptOffer, hh]⟩
  | some w =>
    by_cases hp : s.pending = []
    · cases hd : decode s.params w with
      | illegal c =>
        refine .inr (.inr (.inl ⟨w, c, rfl, hp, hd, ?_⟩))
        simp [acceptOffer, hh, hd, State.busy_eq_false.2 hp, State.raiseIllegal_eq]
      | command i =>
        have hi := illegality_eq_none.1 (decode_eq_command.1 hd).2
        refine .inr (.inr (.inr ⟨w, i, rfl, hp, hd, hi, ?_⟩))
        simp [acceptOffer, hh, hd, exec_of_wf hw hp hi]
    · refine .inr (.inl ⟨hp, ?_⟩)
      have hb := State.busy_eq_true.2 hp
      cases hd : decode s.params w with
      | illegal c => simp [acceptOffer, hh, hd, hb]
      | command i => simp [acceptOffer, hh, hd, exec_of_busy i hw hb]

/-- The transport's turn, by cases. -/
theorem transportTurn_cases (s : State) :
    (s.pending = [] ∧ transportTurn s = .next s) ∨
      (∃ t rest, s.pending = t :: rest ∧ transportTurn s = .next (s.acceptToken t rest)) := by
  cases hp : s.pending with
  | nil => exact .inl ⟨rfl, by simp [transportTurn, hp]⟩
  | cons t rest => exact .inr ⟨t, rest, rfl, by simp [transportTurn, hp]⟩

/-- The state with the event at the head of its agenda taken off. -/
def State.afterEvent (s : State) : State := { s with agenda := s.agenda.tail }

@[simp] theorem State.afterEvent_params (s : State) : s.afterEvent.params = s.params := rfl
@[simp] theorem State.afterEvent_err (s : State) : s.afterEvent.err = s.err := rfl
@[simp] theorem State.afterEvent_cause (s : State) : s.afterEvent.cause = s.cause := rfl
@[simp] theorem State.afterEvent_result (s : State) : s.afterEvent.result = s.result := rfl
@[simp] theorem State.afterEvent_pending (s : State) : s.afterEvent.pending = s.pending := rfl
@[simp] theorem State.afterEvent_held (s : State) : s.afterEvent.held = s.held := rfl
@[simp] theorem State.afterEvent_agenda (s : State) : s.afterEvent.agenda = s.agenda.tail := rfl
@[simp] theorem State.afterEvent_transportFair (s : State) : s.afterEvent.transportFair = s.transportFair := rfl
@[simp] theorem State.afterEvent_log (s : State) : s.afterEvent.log = s.log := rfl
@[simp] theorem State.afterEvent_device (s : State) : s.afterEvent.device = s.device := rfl
@[simp] theorem State.afterEvent_freeReads (s : State) : s.afterEvent.freeReads = s.freeReads := rfl

theorem State.afterEvent_of_nil {s : State} (h : s.agenda = []) : s.afterEvent = s := by
  cases s; simp_all [State.afterEvent]

theorem State.afterEvent_of_cons {s : State} {e : Event} {rest : List Event} (h : s.agenda = e :: rest) :
    s.afterEvent = { s with agenda := rest } := by
  simp [State.afterEvent, h]

/-- The offered word is accepted exactly when the interface has the turn, the block is idle and a word is offered. -/
theorem State.acceptedWord_eq_some {s : State} {w : Word} :
    s.acceptedWord = some w ↔ s.acceptIsNext = true ∧ s.pending = [] ∧ s.held = some w := by
  unfold State.acceptedWord
  cases ha : s.acceptIsNext <;> cases hp : s.pending <;> simp

theorem State.acceptedWord_of_busy {s : State} (h : s.pending ≠ []) : s.acceptedWord = none := by
  unfold State.acceptedWord
  cases hp : s.pending with
  | nil => exact absurd hp h
  | cons t ts => simp

theorem State.acceptedWord_of_other {s : State} (h : s.acceptIsNext = false) : s.acceptedWord = none := by
  simp [State.acceptedWord, h]

theorem State.acceptedWord_of_no_offer {s : State} (h : s.held = none) : s.acceptedWord = none := by
  simp [State.acceptedWord, h]

/-- Everything one step that is no reset can do when it answers a next state, and whether it accepts a word. -/
inductive StepResult (s : State) : State → Prop where
  /-- nothing but the agenda changes -/
  | unchanged (hn : s.acceptedWord = none) : StepResult s s.afterEvent
  /-- the host presents a word or withdraws it -/
  | offer (hn : s.acceptedWord = none) (held : Option Word) : StepResult s { s.afterEvent with held := held }
  /-- a rejection -/
  | rejected (w : Word) (c : Cause) (hw : s.acceptedWord = some w) (hd : decode s.params w = .illegal c) :
      StepResult s (s.afterEvent.rejectedWith c.code)
  /-- a command performed -/
  | performed (w : Word) (i : Instr) (hw : s.acceptedWord = some w) (hd : decode s.params w = .command i)
      (hi : Instr.wf s.params i = true) : StepResult s (s.afterEvent.performed i)
  /-- a token accepted -/
  | token (hn : s.acceptedWord = none) (t : Token) (rest : List Token) (hp : s.pending = t :: rest) :
      StepResult s (s.afterEvent.acceptToken t rest)
  /-- STATUS read -/
  | readStatus (hn : s.acceptedWord = none) :
      StepResult s { s.afterEvent with log := s.log ++ [.status s.statusByte] }
  /-- RESULT read -/
  | readResult (hn : s.acceptedWord = none) (r : LookupResult) (hr : s.result = some r) :
      StepResult s { s.afterEvent with log := s.log ++ [.result r.value] }
  /-- RESULT read while it is unwritten -/
  | readUnwritten (hn : s.acceptedWord = none) (ha : ∃ rest, s.agenda = .read .result :: rest)
      (hr : s.result = none) : StepResult s s.afterEvent.readUnwritten
  /-- the device lost its registers -/
  | deviceReset (hn : s.acceptedWord = none) : StepResult s { s.afterEvent with device := Device.unknown }

theorem acceptOffer_result {s t : State} (hw : s.params.wf = true) (ha : s.acceptIsNext = true)
    (h : acceptOffer s.afterEvent = .next t) : StepResult s t := by
  obtain ⟨hh, e⟩ | ⟨hp, e⟩ | ⟨w, c, hh, hp, hd, e⟩ | ⟨w, i, hh, hp, hd, hi, e⟩ := acceptOffer_cases s.afterEvent hw
  all_goals rw [e] at h; cases h
  · exact .unchanged (State.acceptedWord_of_no_offer hh)
  · exact .unchanged (State.acceptedWord_of_busy hp)
  · exact .rejected w c (State.acceptedWord_eq_some.2 ⟨ha, hp, hh⟩) hd
  · exact .performed w i (State.acceptedWord_eq_some.2 ⟨ha, hp, hh⟩) hd hi

theorem transportTurn_result {s t : State} (hn : s.acceptedWord = none) (h : transportTurn s.afterEvent = .next t) :
    StepResult s t := by
  obtain ⟨-, e⟩ | ⟨tk, rest, hp, e⟩ := transportTurn_cases s.afterEvent
  all_goals rw [e] at h; cases h
  · exact .unchanged hn
  · exact .token hn tk rest hp

/-- The inversion of `step`: the instance is legal, and the step is a reset or one of `StepResult`. -/
theorem step_next {s t : State} (h : step s = .next t) :
    s.params.wf = true ∧
      ((∃ rest, s.agenda = .reset :: rest ∧ s.acceptedWord = none ∧ t = s.afterEvent.resetBlock) ∨
        (s.agenda.head? ≠ some .reset ∧ StepResult s t)) := by
  unfold step at h
  split at h
  · rename_i hw
    refine ⟨hw, ?_⟩
    unfold turn at h
    split at h
    · rename_i ha
      refine .inr ⟨by simp [ha], ?_⟩
      have hn : s.acceptIsNext = true := by simp [State.acceptIsNext, ha]
      unfold selfTurn at h
      split at h
      · cases h
      · split at h
        · rename_i hb
          rw [← State.afterEvent_of_nil ha] at h
          exact transportTurn_result (State.acceptedWord_of_busy (State.busy_eq_true.1 hb)) h
        · rw [← State.afterEvent_of_nil ha] at h
          exact acceptOffer_result hw hn h
    · rename_i e rest ha
      rw [← State.afterEvent_of_cons ha] at h
      have hother : e ≠ .accept → s.acceptedWord = none := by
        intro he
        apply State.acceptedWord_of_other
        cases e <;> simp_all [State.acceptIsNext]
      cases e with
      | reset => cases h; exact .inl ⟨rest, ha, hother (by simp), rfl⟩
      | present w => cases h; exact .inr ⟨by simp [ha], .offer (hother (by simp)) (some w)⟩
      | withdraw => cases h; exact .inr ⟨by simp [ha], .offer (hother (by simp)) none⟩
      | accept => exact .inr ⟨by simp [ha], acceptOffer_result hw (by simp [State.acceptIsNext, ha]) h⟩
      | transportAccept => exact .inr ⟨by simp [ha], transportTurn_result (hother (by simp)) h⟩
      | deviceReset => cases h; exact .inr ⟨by simp [ha], .deviceReset (hother (by simp))⟩
      | read r =>
        refine .inr ⟨by simp [ha], ?_⟩
        cases r with
        | status => cases h; exact .readStatus (hother (by simp))
        | result =>
          simp only [eventTurn, hostRead] at h
          split at h
          · rename_i v hv; cases h; exact .readResult (hother (by simp)) v hv
          · rename_i hv; cases h; exact .readUnwritten (hother (by simp)) ⟨rest, ha⟩ hv
  · cases h

/-- A step in which a word is accepted is the command interface's turn. -/
theorem step_of_acceptedWord {s : State} {w : Word} (hs : s.params.wf = true) (h : s.acceptedWord = some w) :
    step s = acceptOffer s.afterEvent := by
  obtain ⟨ha, hp, -⟩ := State.acceptedWord_eq_some.1 h
  unfold State.acceptIsNext at ha
  split at ha
  all_goals cases ha
  · rename_i he
    rw [State.afterEvent_of_nil he]
    simp [step, hs, turn, he, selfTurn, State.busy_eq_false.2 hp]
  · rename_i rest he
    rw [State.afterEvent_of_cons he]
    simp [step, hs, turn, he, eventTurn]

end Sys2Proof.Machine
end

