-- ==== Sys2Proof/Laws/Run.lean ====
section
/-! SUPPORT. Runs: the observation log as tokens, the steps in which a fair transport takes what is pending, and
the framing of streams. -/

namespace Sys2Proof.Machine

theorem tokensIn_append (a b : List Observation) : tokensIn (a ++ b) = tokensIn a ++ tokensIn b := by
  induction a with
  | nil => rfl
  | cons x a ih => cases x <;> simp [tokensIn, ih]

@[simp] theorem State.emitted_acceptToken (s : State) (t : Token) (rest : List Token) :
    (s.acceptToken t rest).emitted = s.emitted ++ [t] := by
  simp [State.emitted, tokensIn_append, tokensIn]

/-- With the agenda used up, a fair transport takes the first pending token. -/
theorem step_of_pending {s : State} {t : Token} {rest : List Token} (hw : s.params.wf = true) (ha : s.agenda = [])
    (hf : s.transportFair = true) (hp : s.pending = t :: rest) : step s = .next (s.acceptToken t rest) := by
  have hb : s.busy = true := State.busy_eq_true.2 (by simp [hp])
  simp [step, hw, turn, ha, selfTurn, hb, hf, transportTurn, hp]

/-- With the agenda used up, an idle block takes the offer. -/
theorem step_of_idle {s : State} (hw : s.params.wf = true) (ha : s.agenda = []) (hp : s.pending = []) :
    step s = acceptOffer s := by
  simp [step, hw, turn, ha, selfTurn, State.busy_eq_false.2 hp]

/-- After `k` steps a fair transport has taken the first `k` pending tokens, and nothing else has changed but
PENDING, the log and the device. -/
theorem runFrom_of_pending (ts : List Token) (s : State) (hw : s.params.wf = true) (ha : s.agenda = [])
    (hf : s.transportFair = true) (hp : s.pending = ts) (k : Nat) (hk : k ≤ ts.length) :
    ∃ u, runFrom k s = .next u ∧ u.emitted = s.emitted ++ ts.take k ∧
      u = { s with pending := ts.drop k, log := u.log,
                   device := (ts.take k).foldl (Device.observe s.params.devAddr) s.device } := by
  induction ts generalizing s k with
  | nil =>
    obtain rfl : k = 0 := by simpa using hk
    exact ⟨s, rfl, by simp, by cases s; simp_all⟩
  | cons t ts ih =>
    cases k with
    | zero => exact ⟨s, rfl, by simp, by simp [← hp]⟩
    | succ k =>
      obtain ⟨u, hr, he, hu⟩ := ih (s.acceptToken t ts) hw ha hf rfl k (by simpa using hk)
      refine ⟨u, ?_, by simp [he], ?_⟩
      · simp only [runFrom, step_of_pending hw ha hf hp, hr]
      · rw [hu]; rfl

/-- BUSY once `k` of the tokens are gone. -/
theorem State.busy_of_drop {u : State} {ts : List Token} {k : Nat} (h : u.pending = ts.drop k) :
    u.busy = decide (k < ts.length) := by
  unfold State.busy
  rw [h]
  by_cases hk : k < ts.length
  · simp [hk]
  · simp [hk]; omega

theorem frameTokens_append (addr : DevAddr) (f : Framing) (a b : List Token) :
    frameTokens addr f (a ++ b) = (frameTokens addr f a).bind fun f' => frameTokens addr f' b := by
  induction a generalizing f with
  | nil => rfl
  | cons t a ih =>
    simp only [List.cons_append, frameTokens]
    cases frameToken addr f t <;> simp [ih]

theorem frameLog_append (addr : DevAddr) (f : Framing) (a b : List Observation) :
    frameLog addr f (a ++ b) = (frameLog addr f a).bind fun f' => frameLog addr f' b := by
  induction a generalizing f with
  | nil => rfl
  | cons x a ih =>
    cases x with
    | token t =>
      simp only [List.cons_append, frameLog]
      cases frameToken addr f t <;> simp [ih]
    | unterminated =>
      simp only [List.cons_append, frameLog]
      split <;> simp [ih]
    | status v => simpa [frameLog] using ih f
    | result v => simpa [frameLog] using ih f
    | unwrittenResult v => simpa [frameLog] using ih f

/-- Data bytes keep a transaction's body open. -/
theorem frameTokens_bytes (addr : DevAddr) (ds : List Byte) (rest : List Token) :
    frameTokens addr .body (ds.map Token.byte ++ rest) = frameTokens addr .body rest := by
  induction ds with
  | nil => rfl
  | cons d ds ih => simpa [frameTokens, frameToken] using ih

/-- A transaction of at least one data byte is whole (R10). -/
theorem frameTokens_txn (addr : DevAddr) (r : Byte) {ds : List Byte} (h : ds ≠ []) :
    frameTokens addr .closed (txn addr r ds) = some .closed := by
  cases ds with
  | nil => exact absurd rfl h
  | cons d ds => simp [txn, frameTokens, frameToken, frameTokens_bytes]

/-- A transaction is open in the log exactly if its framing says so. -/
theorem openAfter_of_frameLog {addr : DevAddr} {f f' : Framing} {log : List Observation}
    (h : frameLog addr f log = some f') :
    log.foldl openAfter (decide (f ≠ .closed)) = decide (f' ≠ .closed) := by
  induction log generalizing f with
  | nil => simp only [frameLog, Option.some.injEq] at h; simp [h]
  | cons x log ih =>
    cases x with
    | token t =>
      simp only [frameLog] at h
      cases hf : frameToken addr f t with
      | none => simp [hf] at h
      | some g =>
        rw [hf] at h
        rw [List.foldl_cons, ← ih h]
        congr 1
        cases f <;> cases t <;> simp [frameToken] at hf <;> simp [openAfter, ← hf]
    | unterminated =>
      simp only [frameLog] at h
      split at h
      · cases h
      · simpa [openAfter] using ih h
    | status v => simpa [openAfter] using ih (f := f) h
    | result v => simpa [openAfter] using ih (f := f) h
    | unwrittenResult v => simpa [openAfter] using ih (f := f) h

/-- The bytes of a transaction gather at the device. -/
theorem Device.observe_bytes (addr : DevAddr) (regs : Memory) (start : Byte) (bytes ds : List Byte) :
    (ds.map Token.byte).foldl (Device.observe addr) ⟨regs, .data start bytes⟩ = ⟨regs, .data start (bytes ++ ds)⟩ := by
  induction ds generalizing bytes with
  | nil => simp
  | cons d ds ih => simp [Device.observe, ih]

/-- A whole transaction at the device is one commit (R57). -/
theorem Device.observe_txn (addr : DevAddr) (d : Device) (r : Byte) (ds : List Byte) :
    (txn addr r ds).foldl (Device.observe addr) d = ⟨d.commit r ds, .idle⟩ := by
  simp [txn, List.foldl_append, Device.observe, Device.observe_bytes, Device.commit, Device.initDone]

end Sys2Proof.Machine
end

