-- ==== Sys2Proof/Tests/Slice0.lean ====
section
/-! SUPPORT. The model's own tests: ill-formed terms the checks refuse, words written out from the spec's encodings,
one step of each command, and for every statement with hypotheses a state or operands that meet them.
Expected results are from spec/95_test_vectors.md unless a comment says otherwise. -/

namespace Sys2Proof.Tests

open Sys2Proof.Machine

/-! ## Instances and states -/

/-- The one-channel instance of 95_test_vectors.md section 2.4: N = 16, W = 1. -/
def oneChannel : Params := { Params.default with groups := 16, channels := 1, phase := defaultPhase 16 }

/-- The instance of program P5: N = 2, W = 3, PHASE = [0, 2720]. -/
def twoGroups : Params := { Params.default with groups := 2, phase := [0, 2720] }

/-- An instance that breaks R6. -/
def illFormed : Params := { Params.default with groups := 0 }

/-- An instance after reset. -/
def inInstance (p : Params) : State := { State.reset with params := p }

/-- A word offered after reset. -/
def offering (p : Params) (w : Word) : State := { inInstance p with held := some w }

/-- The state with one event on the agenda. -/
def about (s : State) (e : Event) : State := { s with agenda := [e] }

/-- A block in the middle of a transaction. -/
def cutShort : State :=
  { State.reset with pending := [.byte 0x33, .endTxn], log := [.token (.beginTxn 0x40), .token (.byte 0x12)] }

/-- A device in which INIT has completed. -/
def readyDevice : Device := ⟨[(0, 0x20), (1, 0x04), (6, 0xAA)], .idle⟩

/-- The state a step answers, if it answers one. -/
def nextState (o : Host.Outcome State Fault Refusal) : Option State :=
  match o with
  | .next s => some s
  | .fault _ => none
  | .refused _ => none

/-! ## WellFormed: one ill-formed term for each check -/

theorem test_default_wf : Params.default.wf = true := by decide
theorem test_one_channel_wf : oneChannel.wf = true := by decide
theorem test_two_groups_wf : twoGroups.wf = true := by decide
theorem test_no_group_refused : illFormed.wf = false := by decide
theorem test_two_channels_refused : Params.wf { Params.default with channels := 2 } = false := by decide
theorem test_too_many_channels_refused :
    Params.wf { Params.default with groups := 6, phase := defaultPhase 6 } = false := by decide
theorem test_short_phase_table_refused : Params.wf { Params.default with phase := [0, 1, 2, 3] } = false := by decide
theorem test_equal_phases_refused : Params.wf { Params.default with phase := [0, 1, 1, 2, 3] } = false := by decide
theorem test_rgb_on_one_channel_refused : Instr.wf oneChannel (.setallRgb 1 2 3) = false := by decide
theorem test_rgb_group_on_one_channel_refused : Instr.wf oneChannel (.setgrpRgb 0 1 2 3) = false := by decide
theorem test_group_five_refused : Instr.wf Params.default (.setgrpGrey 5 0) = false := by decide

/-! ## Decoding: the table of section 2.4 -/

theorem test_decode_init : decode Params.default 0x10000000 = .command .init := by decide
theorem test_decode_setall_grey : decode Params.default 0x20FF0000 = .command (.setallGrey 255) := by decide
theorem test_decode_setall_rgb : decode Params.default 0x308000FF = .command (.setallRgb 128 0 255) := by decide
theorem test_decode_setgrp_grey : decode Params.default 0x44000000 = .command (.setgrpGrey 4 0) := by decide
theorem test_decode_setgrp_rgb : decode Params.default 0x508000FF = .command (.setgrpRgb 0 128 0 255) := by decide
theorem test_decode_correct : decode Params.default 0x60800000 = .command (.correct 128) := by decide
theorem test_decode_correct_rgb : decode oneChannel 0x70FFFFFF = .command (.correctRgb 255 255 255) := by decide
theorem test_decode_reserved :
    decode Params.default 0x00000000 = .illegal .reservedOpcode ∧
      decode Params.default 0x80000000 = .illegal .reservedOpcode ∧
      decode oneChannel 0xF0000000 = .illegal .reservedOpcode := by decide
theorem test_decode_unused_fields :
    decode Params.default 0x10000001 = .illegal .sbzNonzero ∧ decode Params.default 0x11000000 = .illegal .sbzNonzero ∧
      decode Params.default 0x10010000 = .illegal .sbzNonzero ∧
      decode Params.default 0x21FF0000 = .illegal .sbzNonzero ∧
      decode oneChannel 0x3F000000 = .illegal .sbzNonzero ∧ decode oneChannel 0x4A000100 = .illegal .sbzNonzero ∧
      decode Params.default 0x60000100 = .illegal .sbzNonzero ∧
      decode Params.default 0x7F000000 = .illegal .sbzNonzero := by decide
theorem test_decode_group_range :
    decode Params.default 0x4A000000 = .illegal .groupRange ∧ decode Params.default 0x45000000 = .illegal .groupRange ∧
      decode oneChannel 0x4A000000 = .command (.setgrpGrey 10 0) ∧
      decode Params.default 0x5F000000 = .illegal .groupRange := by decide
theorem test_decode_shape :
    decode oneChannel 0x5F000000 = .illegal .shapeMismatch ∧ decode oneChannel 0x30000000 = .illegal .shapeMismatch ∧
      decode Params.default 0x30000000 = .command (.setallRgb 0 0 0) := by decide

/-- R78's example. -/
theorem test_encode_setgrp_rgb : encode (.setgrpRgb 0 128 0 255) = 0x508000FF := by decide

theorem test_table_word : decodeTableWord 32 0x44FF0000 = some (.setgrpGrey 4 255) := by decide

/-! ## The ROM and the pair -/

theorem test_rom : [0, 1, 2, 20, 21, 37, 64, 127, 128, 192, 236, 253, 254, 255].map rom =
    [0, 2, 4, 36, 37, 75, 182, 748, 761, 1996, 3356, 4012, 4054, 4095] := by decide

set_option maxRecDepth 20000 in
/-- Section 4: the entries are 256 and their sum is 304692. -/
theorem test_rom_sum : romTable.length = 256 ∧ (romTable.map BitVec.toNat).sum = 304692 := by decide

theorem test_pairs :
    pairBytes (pwmPair 819 4095) = [0x33, 0x03, 0x32, 0x03] ∧ pairBytes (pwmPair 2457 1996) = [0x99, 0x09, 0x65, 0x01] ∧
      pairBytes (pwmPair 3276 1000) = [0xCC, 0x0C, 0xB4, 0x00] ∧
      pairBytes (pwmPair 4095 1) = [0xFF, 0x0F, 0x00, 0x00] := by decide

/-! ## One step of each command -/

theorem test_init_step :
    (nextState (step (offering Params.default 0x10000000))).map State.pending =
      some [.beginTxn 0x40, .byte 0x00, .byte 0x20, .endTxn, .beginTxn 0x40, .byte 0x01, .byte 0x04, .endTxn] := by
  decide

theorem test_setall_grey_step :
    (nextState (step (offering Params.default 0x20FF0000))).map (fun s => (s.pending.drop 45).take 15) =
      some [.beginTxn 0x40, .byte 0x2A, .byte 0x99, .byte 0x09, .byte 0x98, .byte 0x09, .byte 0x99, .byte 0x09,
        .byte 0x98, .byte 0x09, .byte 0x99, .byte 0x09, .byte 0x98, .byte 0x09, .endTxn] := by decide

theorem test_setall_grey_one_channel_step :
    (nextState (step (offering oneChannel 0x20800000))).map (fun s => (s.pending.length, s.pending.drop 105)) =
      some (112, [.beginTxn 0x40, .byte 0x42, .byte 0x00, .byte 0x0F, .byte 0xF9, .byte 0x01, .endTxn]) := by decide

theorem test_setall_rgb_step :
    (nextState (step (offering Params.default 0x308000FF))).map (fun s => (s.pending.drop 15).take 15) =
      some [.beginTxn 0x40, .byte 0x12, .byte 0x33, .byte 0x03, .byte 0x2C, .byte 0x06, .byte 0x33, .byte 0x03,
        .byte 0x33, .byte 0x03, .byte 0x33, .byte 0x03, .byte 0x32, .byte 0x03, .endTxn] := by decide

theorem test_setall_rgb_rejected_step :
    (nextState (step (offering oneChannel 0x30010203))).map (fun s => (s.statusByte, s.pending)) =
      some (0x32, []) := by decide

theorem test_setgrp_grey_step :
    (nextState (step (offering oneChannel 0x4FFF0000))).map State.pending =
      some [.beginTxn 0x40, .byte 0x42, .byte 0x00, .byte 0x0F, .byte 0xFF, .byte 0x0E, .endTxn] := by decide

theorem test_setgrp_grey_rejected_step :
    (nextState (step (offering Params.default 0x450A0000))).map State.statusByte = some 0x42 := by decide

theorem test_setgrp_rgb_step :
    (nextState (step (offering Params.default 0x548000FF))).map State.pending =
      some [.beginTxn 0x40, .byte 0x36, .byte 0xCC, .byte 0x0C, .byte 0xC5, .byte 0x0F, .byte 0xCC, .byte 0x0C,
        .byte 0xCC, .byte 0x0C, .byte 0xCC, .byte 0x0C, .byte 0xCB, .byte 0x0C, .endTxn] := by decide

/-- Program P5, step 2. -/
theorem test_setgrp_rgb_wraps :
    (nextState (step (offering twoGroups 0x518000C0))).map State.pending =
      some [.beginTxn 0x40, .byte 0x12, .byte 0xA0, .byte 0x0A, .byte 0x99, .byte 0x0D, .byte 0xA0, .byte 0x0A,
        .byte 0xA0, .byte 0x0A, .byte 0xA0, .byte 0x0A, .byte 0x6C, .byte 0x02, .endTxn] := by decide

theorem test_correct_step :
    (nextState (step (offering Params.default 0x60800000))).map (fun s => s.result.map LookupResult.value) =
      some (some 0x0000002F9) := by decide

theorem test_correct_rgb_step :
    (nextState (step (offering Params.default 0x700180FE))).map (fun s => s.result.map LookupResult.value) =
      some (some 0xFD62F9002) := by decide

/-! ## Status, reset, the word placed for the next step -/

/-- Section 2.6: after rejecting 0x00000000. -/
theorem test_rejection_status :
    (nextState (step (offering Params.default 0x00000000))).map State.statusByte = some 0x12 := by decide

/-- Section 2.6: a second rejection keeps the first cause. -/
theorem test_second_rejection_status :
    (nextState (step { offering Params.default 0x45000000 with err := true, cause := 1 })).map State.statusByte =
      some 0x12 := by decide

theorem test_reset_cuts_transaction :
    (nextState (step (about cutShort .reset))).map (fun s => (s.pending, s.statusByte, s.log)) =
      some ([], 0x00, [.token (.beginTxn 0x40), .token (.byte 0x12), .unterminated]) := by decide

/-- R26, U1: the read is recorded as a fault, and no register of the block changes. -/
theorem test_unwritten_result_recorded :
    (nextState (step (about State.reset (.read .result)))).map
        (fun s => (s.faultRecorded, s.result, s.statusByte, s.log.length)) = some (true, none, 0x00, 1) := by decide

theorem test_fetch_word_runs :
    step (State.reset.withFetchWord 32 0x60800000) = exec (.correct 128) (offering Params.default 0x60800000) := rfl

/-! ## Witnesses: concrete states and operands that meet the hypotheses of the statements -/

theorem witness_ParametersDecideLegality :
    oneChannel.channels = 1 ∧ Params.default.groups ≤ BitVec.toNat (5 : GroupIndex) ∧ Params.default.channels ≠ 1 := by
  decide

theorem witness_AssemblerGivesTheWord :
    assembleOperands (mnemonicOf (.setgrpGrey 0 0)) [15, 255] = some (.setgrpGrey 15 255) := by decide

theorem witness_RomProperties : BitVec.toNat (254 : Byte) < BitVec.toNat (255 : Byte) ∧ 254 ≤ 254 := by decide

theorem witness_GroupPayload : ([7, 8, 9] : List Byte)[2]? = some 9 := by decide

theorem witness_GroupPlacement : oneChannel.wf = true ∧ 15 < oneChannel.groups ∧ 14 + 1 < oneChannel.groups := by decide

theorem witness_DefaultPhasesLegal :
    15 < 16 ∧ 16 ≤ 16 ∧ 1 ≤ 16 ∧ 16 * 1 ≤ 16 ∧ 1 ≤ 5 ∧ 5 * 3 ≤ 16 := by decide

theorem witness_CorrectWritesResult :
    (inInstance Params.default).params.wf = true ∧ (inInstance Params.default).pending = [] ∧
      (offering Params.default 0x60000001).params.wf = true ∧ (offering Params.default 0x60000001).pending = [] ∧
      (offering Params.default 0x60000001).held = some 0x60000001#32 ∧
      0x60000001#32 &&& 0xF0000000#32 = 0x60000000#32 ∧ 0x60000001#32 &&& 0x0F00FFFF#32 ≠ 0#32 := by decide

theorem witness_CorrectRgbWritesLanes :
    (inInstance oneChannel).params.wf = true ∧ (inInstance oneChannel).pending = [] ∧
      (offering oneChannel 0x7F000000).params.wf = true ∧ (offering oneChannel 0x7F000000).pending = [] ∧
      (offering oneChannel 0x7F000000).held = some 0x7F000000#32 ∧
      0x7F000000#32 &&& 0xF0000000#32 = 0x70000000#32 ∧ 0x7F000000#32 &&& 0x0F000000#32 ≠ 0#32 := by decide

theorem witness_InitEmitsModeWrites :
    (inInstance Params.default).params.wf = true ∧ (inInstance Params.default).pending = [] ∧
      (offering Params.default 0x10010000).params.wf = true ∧ (offering Params.default 0x10010000).pending = [] ∧
      (offering Params.default 0x10010000).held = some 0x10010000#32 ∧
      0x10010000#32 &&& 0xF0000000#32 = 0x10000000#32 ∧ 0x10010000#32 &&& 0x0FFFFFFF#32 ≠ 0#32 := by decide

theorem witness_SetallGreyEmitsAllGroups :
    (inInstance oneChannel).params.wf = true ∧ (inInstance oneChannel).pending = [] ∧
      (offering Params.default 0x20FF0001).params.wf = true ∧ (offering Params.default 0x20FF0001).pending = [] ∧
      (offering Params.default 0x20FF0001).held = some 0x20FF0001#32 ∧
      0x20FF0001#32 &&& 0xF0000000#32 = 0x20000000#32 ∧ 0x20FF0001#32 &&& 0x0F00FFFF#32 ≠ 0#32 := by decide

theorem witness_SetallRgbEmitsAllGroups :
    (inInstance Params.default).params.wf = true ∧ (inInstance Params.default).params.channels = 3 ∧
      (inInstance Params.default).pending = [] ∧ Params.default.channels ≠ 1 ∧
      (offering Params.default 0x3F000000).params.wf = true ∧ (offering Params.default 0x3F000000).pending = [] ∧
      (offering Params.default 0x3F000000).held = some 0x3F000000#32 ∧
      0x3F000000#32 &&& 0xF0000000#32 = 0x30000000#32 ∧ 0x3F000000#32 &&& 0x0F000000#32 ≠ 0#32 ∧
      (inInstance oneChannel).params.wf = true ∧ (inInstance oneChannel).params.channels = 1 ∧
      (inInstance oneChannel).pending = [] := by decide

theorem witness_SetgrpGreyEmitsOneGroup :
    (inInstance Params.default).params.wf = true ∧
      BitVec.toNat (4 : GroupIndex) < (inInstance Params.default).params.groups ∧
      (inInstance Params.default).pending = [] ∧ BitVec.toNat (15 : GroupIndex) < oneChannel.groups ∧
      (offering Params.default 0x44000100).params.wf = true ∧ (offering Params.default 0x44000100).pending = [] ∧
      (offering Params.default 0x44000100).held = some 0x44000100#32 ∧
      0x44000100#32 &&& 0xF0000000#32 = 0x40000000#32 ∧ 0x44000100#32 &&& 0x0000FFFF#32 ≠ 0#32 ∧
      (inInstance Params.default).params.groups ≤ BitVec.toNat (5 : GroupIndex) := by decide

theorem witness_SetgrpRgbEmitsOneGroup :
    (inInstance Params.default).params.wf = true ∧ (inInstance Params.default).params.channels = 3 ∧
      BitVec.toNat (4 : GroupIndex) < (inInstance Params.default).params.groups ∧
      (inInstance Params.default).pending = [] ∧ Params.default.channels ≠ 1 ∧
      (inInstance Params.default).params.groups ≤ BitVec.toNat (5 : GroupIndex) ∧
      (inInstance oneChannel).params.wf = true ∧ (inInstance oneChannel).params.channels = 1 ∧
      (inInstance oneChannel).pending = [] := by decide

theorem witness_CommandsLeaveTheRest :
    Instr.wf (inInstance Params.default).params (.correct 128) = true ∧
      nextState (exec (.correct 128) (inInstance Params.default)) ≠ none ∧
      lookupOf .init = none ∧ tokensOf (inInstance Params.default).params (.correct 128) = [] := by decide

theorem witness_TokenCounts : oneChannel.wf = true ∧ Instr.wf oneChannel (.setgrpGrey 15 0) = true := by decide

theorem witness_TransactionsStayInTheMap :
    Params.default.wf = true ∧ Instr.wf Params.default (.setallRgb 1 2 3) = true := by decide

theorem witness_CommandsIgnoreHistory :
    ((inInstance Params.default).params =
        (State.params { inInstance Params.default with err := true, cause := 4, device := readyDevice }) ∧
      (inInstance Params.default).pending = []) ∧
      Instr.wf (inInstance Params.default).params (.correct 7) = true ∧
      nextState (exec (.correct 7) (inInstance Params.default)) ≠ none ∧
      nextState (exec (.correct 7) { inInstance Params.default with err := true, cause := 4, device := readyDevice }) ≠
        none ∧
      lookupOf (.correct 7) ≠ none := by decide

theorem witness_IllegalCommandOnlyRecordsCause :
    (offering Params.default 0).pending = [] ∧ (offering Params.default 0).held = some 0#32 ∧
      decode (offering Params.default 0).params 0#32 = .illegal .reservedOpcode ∧
      (inInstance oneChannel).params.wf = true ∧
      illegality (inInstance oneChannel).params (.setallRgb 1 2 3) = some .shapeMismatch := by decide

theorem witness_ErrAndCauseWritten :
    (offering Params.default 0).params.wf = true ∧ (offering Params.default 0).acceptedWord = some 0#32 ∧
      decode (offering Params.default 0).params 0#32 = .illegal .reservedOpcode ∧
      (nextState (step (offering Params.default 0))).map State.err = some true ∧
      (offering Params.default 0).err = false ∧
      (about cutShort .reset).params.wf = true ∧ (about cutShort .reset).agenda = [.reset] ∧
      nextState (step (about cutShort .reset)) ≠ none := by decide

theorem witness_StatusReadsItsFields :
    (about cutShort (.read .status)).params.wf = true ∧ (about cutShort (.read .status)).agenda = [.read .status] := by
  decide

theorem witness_StatusReadsItsFields_invariant : MachineInv State.reset ∧ State.reset.err = false :=
  ⟨⟨by decide, by decide, by decide, by decide⟩, rfl⟩

theorem witness_ResultReadAndWriters :
    (about { State.reset with result := some ⟨1, 2, 3⟩ } (.read .result)).params.wf = true ∧
      (about { State.reset with result := some ⟨1, 2, 3⟩ } (.read .result)).agenda = [.read .result] ∧
      (about { State.reset with result := some ⟨1, 2, 3⟩ } (.read .result)).result = some ⟨1, 2, 3⟩ ∧
      (about State.reset (.read .result)).params.wf = true ∧
      (about State.reset (.read .result)).agenda = [.read .result] ∧
      (about State.reset (.read .result)).result = none ∧
      (nextState (step (offering Params.default 0x60800000))).map State.result ≠
        some (offering Params.default 0x60800000).result ∧
      nextState (step (offering Params.default 0x60800000)) ≠ none := by decide

theorem witness_ResetAbandonsTheCommand :
    (about cutShort .reset).params.wf = true ∧ (about cutShort .reset).agenda = .reset :: [] := by decide

theorem witness_ResetAbandonsTheCommand_cut :
    ∃ before a after, (about cutShort .reset).log = before ++ .token (.beginTxn a) :: after ∧
      .token .endTxn ∉ after ∧ .unterminated ∉ after :=
  ⟨[], 0x40, [.token (.byte 0x12)], rfl, by decide, by decide⟩

theorem witness_ResetAbandonsTheCommand_whole :
    ¬∃ before a after, (about State.reset .reset).log = before ++ .token (.beginTxn a) :: after ∧
      .token .endTxn ∉ after ∧ .unterminated ∉ after := by
  rintro ⟨before, a, after, h, -, -⟩
  cases before <;> cases h

theorem witness_ResetLeavesHostAndDevice :
    (about State.reset .reset).params.wf = true ∧ (about State.reset .reset).agenda = .reset :: [] ∧
      (about State.reset .reset).transactionOpen = false := by decide

theorem witness_OfferIsAcceptedOrHeld :
    (about (offering Params.default 0x10000000) .accept).params.wf = true ∧
      (about (offering Params.default 0x10000000) .accept).agenda = .accept :: [] ∧
      (about (offering Params.default 0x10000000) .accept).pending = [] ∧
      (about (offering Params.default 0x10000000) .accept).held = some 0x10000000#32 ∧
      (about cutShort .accept).params.wf = true ∧ (about cutShort .accept).agenda = .accept :: [] ∧
      (about cutShort .accept).pending ≠ [] ∧
      (about cutShort (.present 5)).agenda = .present 5 :: [] ∧ (about cutShort (.present 5)).held = none ∧
      (about cutShort .withdraw).agenda = .withdraw :: [] := by decide

theorem witness_OfferIsAcceptedOrHeld_again :
    (about (offering Params.default 5) (.present 5)).params.wf = true ∧
      (about (offering Params.default 5) (.present 5)).agenda = .present 5 :: [] ∧
      (about (offering Params.default 5) (.present 5)).held = some 5#32 := by decide

theorem witness_NewOfferReplacesTheHeld :
    (about (offering Params.default 3) (.present 5)).params.wf = true ∧
      (about (offering Params.default 3) (.present 5)).agenda = .present 5 :: [] ∧
      (about (offering Params.default 3) (.present 5)).held = some 3#32 := by decide

theorem witness_StepRunsTheDecodedCommand :
    (offering Params.default 0x10000000).params.wf = true ∧ (offering Params.default 0x10000000).agenda = [] ∧
      (offering Params.default 0x10000000).pending = [] ∧
      (offering Params.default 0x10000000).held = some 0x10000000#32 ∧
      decode (offering Params.default 0x10000000).params 0x10000000#32 = .command .init ∧
      (about (offering Params.default 0x10000000) .accept).agenda = .accept :: [] ∧
      Instr.wf State.reset.params .init = true ∧ decodeTableWord 32 0x10000000 = some .init := by decide

theorem witness_TransportTakesTheFirstToken :
    (about cutShort .transportAccept).params.wf = true ∧
      (about cutShort .transportAccept).agenda = .transportAccept :: [] ∧
      (about cutShort .transportAccept).pending = .byte 0x33 :: [.endTxn] ∧
      cutShort.params.wf = true ∧ cutShort.agenda = [] ∧ cutShort.transportFair = true := by decide

theorem witness_DeadTransportIsStuck :
    State.agenda { cutShort with transportFair := false } = [] ∧
      State.pending { cutShort with transportFair := false } ≠ [] ∧
      State.transportFair { cutShort with transportFair := false } = false ∧ cutShort.params.wf = true := by decide

theorem witness_IllFormedInstanceRefused : (inInstance illFormed).params.wf = false := by decide

theorem witness_OnlyADeadTransportStops : State.reset.params.wf = true := by decide

theorem witness_ParametersNeverChange : nextState (runFrom 1 (about cutShort .reset)) ≠ none := by decide

theorem witness_StepKeepsTheInvariant :
    MachineInv cutShort ∧ nextState (step cutShort) ≠ none :=
  ⟨⟨by decide, by decide, by decide, by decide⟩, by decide⟩

theorem witness_StepKeepsOneCommand :
    OneCommand { State.reset with pending := (tokensOf Params.default .init).drop 1,
                                  log := [.token (.beginTxn 0x40)] } ∧
      nextState (step { State.reset with pending := (tokensOf Params.default .init).drop 1,
                                         log := [.token (.beginTxn 0x40)] }) ≠ none :=
  ⟨.inr ⟨.init, [.beginTxn 0x40], by decide, by decide, by decide⟩, by decide⟩

theorem witness_TokensFollowTheAcceptedCommands :
    .reset ∉ (offering Params.default 0x10000000).agenda ∧
      nextState (runFrom 2 (offering Params.default 0x10000000)) ≠ none := by decide

theorem witness_CommandCompletes :
    (offering Params.default (encode (.setgrpGrey 4 255))).params.wf = true ∧
      Instr.wf (offering Params.default (encode (.setgrpGrey 4 255))).params (.setgrpGrey 4 255) = true ∧
      (offering Params.default (encode (.setgrpGrey 4 255))).pending = [] ∧
      (offering Params.default (encode (.setgrpGrey 4 255))).agenda = [] ∧
      (offering Params.default (encode (.setgrpGrey 4 255))).transportFair = true ∧
      (offering Params.default (encode (.setgrpGrey 4 255))).held = some (encode (.setgrpGrey 4 255)) ∧
      15 ≤ (tokensOf Params.default (.setgrpGrey 4 255)).length := by decide

theorem witness_TransactionWritesConsecutiveRegisters :
    readyDevice.initDone = true ∧ readyDevice.bus = .idle ∧ ([0xAA, 0xBB] : List Byte) ≠ [] ∧
      BitVec.toNat (0xFE : Byte) + ([0xAA, 0xBB] : List Byte).length ≤ 256 := by decide

theorem witness_InitReadiesTheDevice :
    (offering Params.default (encode .init)).params.wf = true ∧ (offering Params.default (encode .init)).pending = [] ∧
      (offering Params.default (encode .init)).agenda = [] ∧
      (offering Params.default (encode .init)).transportFair = true ∧
      (offering Params.default (encode .init)).held = some (encode .init) ∧
      (offering Params.default (encode .init)).device.bus = .idle ∧
      State.device { offering Params.default (encode .init) with device := readyDevice } = readyDevice ∧
      readyDevice.initDone = true ∧ 2 ≤ BitVec.toNat (2 : Byte) := by decide

theorem witness_SetgrpReachesItsRegistersOnly :
    (offering oneChannel (encode (.setgrpGrey 15 255))).params.wf = true ∧
      Instr.wf (offering oneChannel (encode (.setgrpGrey 15 255))).params (.setgrpGrey 15 255) = true ∧
      (offering oneChannel (encode (.setgrpGrey 15 255))).pending = [] ∧
      (offering oneChannel (encode (.setgrpGrey 15 255))).agenda = [] ∧
      (offering oneChannel (encode (.setgrpGrey 15 255))).transportFair = true ∧
      (offering oneChannel (encode (.setgrpGrey 15 255))).held = some (encode (.setgrpGrey 15 255)) ∧
      readyDevice.bus = .idle ∧ readyDevice.initDone = true ∧
      (List.replicate oneChannel.channels (255 : Byte))[0]? = some 255 ∧
      BitVec.toNat (0x41 : Byte) < 0x06 + 4 * oneChannel.channels * 15 ∧
      0x06 + 4 * oneChannel.channels * (15 + 1) ≤ BitVec.toNat (0x46 : Byte) := by decide

theorem witness_SetgrpReachesItsRegistersOnly_rgb :
    (offering Params.default (encode (.setgrpRgb 4 128 0 255))).params.wf = true ∧
      Instr.wf (offering Params.default (encode (.setgrpRgb 4 128 0 255))).params (.setgrpRgb 4 128 0 255) = true ∧
      (∃ r g b, Instr.setgrpRgb 4 128 0 255 = .setgrpRgb 4 r g b ∧ ([128, 0, 255] : List Byte) = [r, g, b]) ∧
      (offering Params.default (encode (.setgrpRgb 4 128 0 255))).pending = [] ∧
      (offering Params.default (encode (.setgrpRgb 4 128 0 255))).agenda = [] ∧
      (offering Params.default (encode (.setgrpRgb 4 128 0 255))).transportFair = true ∧
      (offering Params.default (encode (.setgrpRgb 4 128 0 255))).held = some (encode (.setgrpRgb 4 128 0 255)) ∧
      State.device { offering Params.default (encode (.setgrpRgb 4 128 0 255)) with device := readyDevice }
        = readyDevice ∧
      readyDevice.bus = .idle ∧ readyDevice.initDone = true ∧ ([128, 0, 255] : List Byte)[2]? = some 255 ∧
      BitVec.toNat (0x35 : Byte) < 0x06 + 4 * Params.default.channels * 4 ∧
      0x06 + 4 * Params.default.channels * (4 + 1) ≤ BitVec.toNat (0x42 : Byte) :=
  ⟨by decide, by decide, ⟨128, 0, 255, rfl, rfl⟩, by decide, by decide, by decide, by decide, by decide, by decide,
    by decide, by decide, by decide, by decide⟩

theorem witness_NoDeviceClaimBeforeInit :
    Device.unknown.initDone = false ∧ (about State.reset .deviceReset).params.wf = true ∧
      (about State.reset .deviceReset).agenda = .deviceReset :: [] := by decide

theorem witness_UnwrittenReadStaysRecorded :
    nextState (step (about State.reset (.read .result))) ≠ none ∧
      (about State.reset (.read .result)).faultRecorded = false ∧
      (about State.reset (.read .result)).agenda = .read .result :: [] ∧
      (about State.reset (.read .result)).result = none := by decide

theorem witness_UnwrittenReadStaysRecorded_later :
    State.faultRecorded { about cutShort .reset with log := [.unwrittenResult 5] } = true ∧
      nextState (runFrom 2 { about cutShort .reset with log := [.unwrittenResult 5] }) ≠ none := by decide

end Sys2Proof.Tests
end

section
/-! The device map: every command's tokens as a list of transactions, each whole and inside the map (R51, R55). -/

namespace Sys2Proof

/-- The legal values of R6 and R111, one by one. -/
theorem Params.wf_iff {p : Params} :
    p.wf = true ↔
      1 ≤ p.groups ∧ (p.channels = 1 ∨ p.channels = 3) ∧ p.groups * p.channels ≤ 16 ∧
        p.phase.length = p.groups ∧ risingTicks p.phase = true := by
  simp only [Params.wf, Bool.and_eq_true, decide_eq_true_eq, and_assoc]

end Sys2Proof

namespace Sys2Proof.Machine

/-- Start register and data bytes of the transaction that sets one group (R131). -/
def groupPart (p : Params) (levels : List Byte) (g : Nat) : Byte × List Byte :=
  (groupBase p g, groupBytes p g levels)

/-- Start register and data bytes of every transaction of a command, in order (R130 to R139). -/
def txnParts (p : Params) : Instr → List (Byte × List Byte)
  | .init => [(mode1Reg, [p.mode1Init]), (mode2Reg, [p.mode2Init])]
  | .setallGrey level => (List.range p.groups).map (groupPart p (greyLevels p level))
  | .setallRgb red green blue => (List.range p.groups).map (groupPart p (rgbLevels red green blue))
  | .setgrpGrey group level => [groupPart p (greyLevels p level) group.toNat]
  | .setgrpRgb group red green blue => [groupPart p (rgbLevels red green blue) group.toNat]
  | .correct _ => []
  | .correctRgb _ _ _ => []

/-- The tokens of a command are its transactions, one after another (R10). -/
theorem tokensOf_eq_flatMap_txn (p : Params) (i : Instr) :
    tokensOf p i = (txnParts p i).flatMap fun x => txn p.devAddr x.1 x.2 := by
  cases i with
  | init => simp [tokensOf, initTokens, txnParts]
  | setallGrey l => simp [tokensOf, allGroupsTxns, groupTxn, txnParts, groupPart, List.flatMap_map]
  | setallRgb r g b => simp [tokensOf, allGroupsTxns, groupTxn, txnParts, groupPart, List.flatMap_map]
  | setgrpGrey n l => simp [tokensOf, groupTxn, txnParts, groupPart]
  | setgrpRgb n r g b => simp [tokensOf, groupTxn, txnParts, groupPart]
  | correct l => rfl
  | correctRgb r g b => rfl

/-- A transaction of one byte to a mode register, or of whole channel blocks of the map (R51, R55). -/
def InDeviceMap (x : Byte × List Byte) : Prop :=
  ((x.1 = 0x00 ∨ x.1 = 0x01) ∧ x.2.length = 1) ∨
    ∃ m k, x.1.toNat = 0x06 + 4 * m ∧ 1 ≤ k ∧ x.2.length = 4 * k ∧ x.1.toNat + x.2.length ≤ 0x46

theorem InDeviceMap.data_ne_nil {x : Byte × List Byte} (h : InDeviceMap x) : x.2 ≠ [] := by
  apply List.ne_nil_of_length_pos
  obtain ⟨-, hlen⟩ | ⟨m, k, -, hk, hlen, -⟩ := h <;> omega

/-- Four bytes a channel (R117, R118). -/
theorem length_groupBytes (p : Params) (g : Nat) (levels : List Byte) :
    (groupBytes p g levels).length = 4 * levels.length := by
  induction levels with
  | nil => rfl
  | cons l ls ih =>
    simp only [groupBytes, List.flatMap_cons, List.length_append, List.length_cons] at ih ⊢
    rw [ih]
    simp only [channelBytes, pairBytes, List.length_cons, List.length_nil]
    omega

/-- The blocks of a group below `N` end at 0x45 at the latest: `W * (g + 1) ≤ W * N ≤ 16` (R6, R52). -/
theorem groupPart_inDeviceMap {p : Params} {levels : List Byte} {g : Nat} (hp : p.wf = true) (hg : g < p.groups)
    (hl : levels.length = p.channels) : InDeviceMap (groupPart p levels g) := by
  obtain ⟨-, hW, hNW, -, -⟩ := Params.wf_iff.1 hp
  have hroom : p.channels * g + p.channels ≤ 16 :=
    calc p.channels * g + p.channels = (g + 1) * p.channels := by ring
      _ ≤ p.groups * p.channels := Nat.mul_le_mul_right _ hg
      _ ≤ 16 := hNW
  have hbase : (groupPart p levels g).1.toNat = 0x06 + 4 * (p.channels * g) := by
    simp only [groupPart, groupBase, BitVec.toNat_ofNat, mul_assoc]
    omega
  have hlen : (groupPart p levels g).2.length = 4 * p.channels := by
    rw [groupPart, length_groupBytes, hl]
  exact .inr ⟨p.channels * g, p.channels, hbase, by omega, hlen, by omega⟩

/-- Where the three-shape commands are legal, a group has three channels (R6, R76). -/
theorem length_rgbLevels {p : Params} (hp : p.wf = true) (h : p.channels ≠ 1) (red green blue : Byte) :
    (rgbLevels red green blue).length = p.channels := by
  obtain ⟨-, hW, -⟩ := Params.wf_iff.1 hp
  exact (hW.resolve_left h).symm

theorem length_greyLevels (p : Params) (level : Byte) : (greyLevels p level).length = p.channels :=
  List.length_replicate

/-- The transactions that set every group stay in the map. -/
theorem allGroups_inDeviceMap {p : Params} {levels : List Byte} (hp : p.wf = true) (hl : levels.length = p.channels) :
    ∀ x ∈ (List.range p.groups).map (groupPart p levels), InDeviceMap x := by
  intro x hx
  obtain ⟨g, hg, rfl⟩ := List.mem_map.1 hx
  exact groupPart_inDeviceMap hp (List.mem_range.1 hg) hl

/-- Every transaction of a command that is legal under the parameters stays in the map (R51, R55). -/
theorem txnParts_inDeviceMap {p : Params} {i : Instr} (hp : p.wf = true) (hi : Instr.wf p i = true) :
    ∀ x ∈ txnParts p i, InDeviceMap x := by
  simp only [Instr.wf, Bool.and_eq_true] at hi
  obtain ⟨hshape, hgroup⟩ := hi
  cases i with
  | init => simp [txnParts, InDeviceMap, mode1Reg, mode2Reg]
  | setallGrey l => exact allGroups_inDeviceMap hp (length_greyLevels p l)
  | setallRgb r g b => exact allGroups_inDeviceMap hp (length_rgbLevels hp (of_decide_eq_true hshape) r g b)
  | setgrpGrey n l =>
    exact List.forall_mem_singleton.2
      (groupPart_inDeviceMap hp (of_decide_eq_true hgroup) (length_greyLevels p l))
  | setgrpRgb n r g b =>
    exact List.forall_mem_singleton.2
      (groupPart_inDeviceMap hp (of_decide_eq_true hgroup) (length_rgbLevels hp (of_decide_eq_true hshape) r g b))
  | correct l => simp [txnParts]
  | correctRgb r g b => simp [txnParts]

/-- Settles O23: the transactions are `txnParts`, which stay in the map. -/
theorem transactionsStayInTheMap : Obligations.TransactionsStayInTheMap := by
  unfold Obligations.TransactionsStayInTheMap
  intro p i hp hi
  exact ⟨txnParts p i, tokensOf_eq_flatMap_txn p i, txnParts_inDeviceMap hp hi⟩

end Sys2Proof.Machine
end

section
/-! The machine invariant, part by part: the framing of the stream (R10, R59, R182), the coherence of STATUS
(R24, R162), and their preservation by every step. -/

namespace Sys2Proof.Machine

/-- Transactions with data, one after another, keep the stream closed (R10). -/
theorem frameTokens_flatMap_txn (addr : DevAddr) {parts : List (Byte × List Byte)} (h : ∀ x ∈ parts, x.2 ≠ []) :
    frameTokens addr .closed (parts.flatMap fun x => txn addr x.1 x.2) = some .closed := by
  induction parts with
  | nil => rfl
  | cons x xs ih =>
    obtain ⟨hx, hxs⟩ := List.forall_mem_cons.1 h
    rw [List.flatMap_cons, frameTokens_append, frameTokens_txn addr x.1 hx, Option.bind_some, ih hxs]

/-- A command's tokens are whole transactions (R59). -/
theorem frameTokens_tokensOf {p : Params} {i : Instr} (hp : p.wf = true) (hi : Instr.wf p i = true) :
    frameTokens p.devAddr .closed (tokensOf p i) = some .closed := by
  rw [tokensOf_eq_flatMap_txn]
  exact frameTokens_flatMap_txn _ fun x hx => (txnParts_inDeviceMap hp hi x hx).data_ne_nil

/-- Framed: the log stands somewhere in a transaction, and the pending tokens close it. -/
theorem State.framed_iff {s : State} :
    s.framed = true ↔
      ∃ f, frameLog s.params.devAddr .closed s.log = some f ∧
        frameTokens s.params.devAddr f s.pending = some .closed := by
  unfold State.framed
  cases frameLog s.params.devAddr .closed s.log <;> simp

/-- In an idle block every transaction of the log is closed. -/
theorem State.frameLog_of_idle {s : State} (h : s.framed = true) (hp : s.pending = []) :
    frameLog s.params.devAddr .closed s.log = some .closed := by
  obtain ⟨f, hlog, hpend⟩ := State.framed_iff.1 h
  rw [hp, frameTokens, Option.some.injEq] at hpend
  rw [hlog, hpend]

/-- An observation that is neither a token nor a mark leaves the framing. -/
theorem State.framed_of_neutral {s t : State} {x : Observation} (h : s.framed = true)
    (hparams : t.params = s.params) (hpending : t.pending = s.pending) (hlog : t.log = s.log ++ [x])
    (hx : ∀ addr f, frameLog addr f [x] = some f) : t.framed = true := by
  obtain ⟨f, hf, hpend⟩ := State.framed_iff.1 h
  refine State.framed_iff.2 ⟨f, ?_, ?_⟩
  · rw [hlog, hparams, frameLog_append, hf, Option.bind_some, hx]
  · rw [hparams, hpending, hpend]

/-- An accepted token moves from what is pending to the log. -/
theorem State.framed_acceptToken {s : State} {t : Token} {rest : List Token} (hp : s.pending = t :: rest)
    (h : s.framed = true) : (s.acceptToken t rest).framed = true := by
  obtain ⟨f, hlog, hpend⟩ := State.framed_iff.1 h
  rw [hp, frameTokens] at hpend
  cases hf : frameToken s.params.devAddr f t with
  | none => simp [hf] at hpend
  | some f' =>
    rw [hf] at hpend
    exact State.framed_iff.2 ⟨f', by simp [frameLog_append, hlog, frameLog, hf], hpend⟩

/-- A command performed by an idle block appends whole transactions to a closed stream. -/
theorem State.framed_performed {s : State} {i : Instr} (hw : s.params.wf = true) (hi : Instr.wf s.params i = true)
    (hp : s.pending = []) (h : s.framed = true) : (s.performed i).framed = true := by
  have hlog := State.frameLog_of_idle h hp
  exact State.framed_iff.2 ⟨.closed, hlog, frameTokens_tokensOf hw hi⟩

/-- The transport is inside a transaction exactly if the framing of the log is not closed (R182). -/
theorem State.transactionOpen_of_frameLog {s : State} {addr : DevAddr} {f : Framing}
    (h : frameLog addr .closed s.log = some f) : s.transactionOpen = decide (f ≠ .closed) := by
  simpa [State.transactionOpen] using openAfter_of_frameLog h

/-- A reset leaves a closed stream: it marks the transaction it cuts (R182). -/
theorem State.framed_resetBlock {s : State} (h : s.framed = true) : s.resetBlock.framed = true := by
  obtain ⟨f, hlog, -⟩ := State.framed_iff.1 h
  have hopen := State.transactionOpen_of_frameLog hlog
  refine State.framed_iff.2 ⟨.closed, ?_, by rw [State.resetBlock_pending, frameTokens]⟩
  rw [State.resetBlock_params]
  by_cases hf : f = .closed
  · have hkeep : s.resetBlock.log = s.log := by simp [State.resetBlock, hopen, hf]
    rw [hkeep, hlog, hf]
  · have hmark : s.resetBlock.log = s.log ++ [.unterminated] := by simp [State.resetBlock, hopen, hf]
    rw [hmark, frameLog_append, hlog, Option.bind_some, frameLog, if_neg hf, frameLog]

/-- The codes of the causes are 1 to 4 (R162). -/
theorem Cause.code_range (c : Cause) : 1 ≤ c.code.toNat ∧ c.code.toNat ≤ 4 := by
  cases c <;> decide

theorem State.statusCoherent_rejectedWith {s : State} (c : Cause) (h : s.statusCoherent = true) :
    (s.rejectedWith c.code).statusCoherent = true := by
  cases he : s.err with
  | false => simpa [State.statusCoherent, he] using Cause.code_range c
  | true => simpa [State.statusCoherent, he] using h

theorem State.statusCoherent_resetBlock (s : State) : s.resetBlock.statusCoherent = true := by
  simp [State.statusCoherent]

/-- A reset keeps the device register space canonical, or loses it. -/
theorem State.wf_regs_resetBlock {s : State} (h : s.device.regs.wf = true) : s.resetBlock.device.regs.wf = true := by
  unfold State.resetBlock
  split
  · exact Device.wf_unknown
  · exact h

theorem MachineInv.afterEvent {s : State} (h : MachineInv s) : MachineInv s.afterEvent :=
  ⟨h.legalInstance, h.coherent, h.framed, h.canonical⟩

theorem MachineInv.resetBlock {s : State} (h : MachineInv s) : MachineInv s.resetBlock :=
  ⟨by rw [State.resetBlock_params, h.legalInstance], s.statusCoherent_resetBlock,
    State.framed_resetBlock h.framed, State.wf_regs_resetBlock h.canonical⟩

/-- The invariant over a step that is no reset, by what the step did. -/
theorem StepResult.machineInv {s t : State} (hr : StepResult s t) (hs : MachineInv s) : MachineInv t := by
  have h := hs.afterEvent
  cases hr with
  | unchanged => exact h
  | offer => exact ⟨h.legalInstance, h.coherent, h.framed, h.canonical⟩
  | rejected w c =>
    exact ⟨h.legalInstance, State.statusCoherent_rejectedWith c h.coherent, h.framed, h.canonical⟩
  | performed w i hw hd hi =>
    obtain ⟨-, hp, -⟩ := State.acceptedWord_eq_some.1 hw
    exact ⟨h.legalInstance, h.coherent, State.framed_performed h.legalInstance hi hp h.framed, h.canonical⟩
  | token hn tk rest hp =>
    exact ⟨h.legalInstance, h.coherent, State.framed_acceptToken hp h.framed, Device.wf_observe _ _ tk h.canonical⟩
  | readStatus | readResult | readUnwritten =>
    exact ⟨h.legalInstance, h.coherent, State.framed_of_neutral h.framed rfl rfl rfl fun _ _ => rfl, h.canonical⟩
  | deviceReset => exact ⟨h.legalInstance, h.coherent, h.framed, Device.wf_unknown⟩

/-- Settles O42, by the inversion of `step`: a reset, or one of the results of `StepResult`. -/
theorem stepKeepsTheInvariant : Obligations.StepKeepsTheInvariant := by
  unfold Obligations.StepKeepsTheInvariant
  intro s t hs h
  obtain ⟨-, ⟨-, -, -, rfl⟩ | ⟨-, hr⟩⟩ := step_next h
  · exact hs.afterEvent.resetBlock
  · exact hr.machineInv hs

end Sys2Proof.Machine
end

section
/-! The parameters along a run (R6), and the state after reset (R32). -/

namespace Sys2Proof.Machine

theorem StepResult.params_eq {s t : State} (h : StepResult s t) : t.params = s.params := by
  cases h <;> rfl

/-- No step changes a parameter (R6). -/
theorem step_params_eq {s t : State} (h : step s = .next t) : t.params = s.params := by
  obtain ⟨-, ⟨-, -, -, rfl⟩ | ⟨-, hr⟩⟩ := step_next h
  · rw [State.resetBlock_params, State.afterEvent_params]
  · exact hr.params_eq

/-- A run of `k + 1` steps is a step and a run of `k`. -/
theorem runFrom_succ_next {k : Nat} {s t : State} (h : runFrom (k + 1) s = .next t) :
    ∃ u, step s = .next u ∧ runFrom k u = .next t := by
  rw [runFrom] at h
  split at h
  · rename_i u hu
    exact ⟨u, hu, h⟩
  · cases h
  · cases h

/-- Settles O40, by induction on the number of steps. -/
theorem parametersNeverChange : Obligations.ParametersNeverChange := by
  unfold Obligations.ParametersNeverChange
  intro k
  induction k with
  | zero => intro s t h; cases h; rfl
  | succ k ih =>
    intro s t h
    obtain ⟨u, hstep, hrun⟩ := runFrom_succ_next h
    rw [ih u t hrun, step_params_eq hstep]

/-- The phase table of this hardware, five groups (R112). -/
theorem defaultPhase_five : defaultPhase 5 = [0, 819, 1638, 2457, 3276] := by decide

/-- Settles O30: the registers field by field, the parameters with their phase table written out. -/
theorem resetState : Obligations.ResetState := by
  unfold Obligations.ResetState
  have hparams : State.reset.params = ⟨0x40, 5, 3, [0, 819, 1638, 2457, 3276], 0x20, 0x04⟩ := by
    rw [← defaultPhase_five]; rfl
  refine ⟨rfl, rfl, rfl, rfl, rfl, rfl, hparams, ?_⟩
  rw [hparams]
  decide

end Sys2Proof.Machine
end

section
/-! The turns, said once: an event of the agenda, an offered word by what it decodes to, and the command a step
performs. -/

namespace Sys2Proof.Machine

/-- With an event on the agenda a step of a legal block is that event (R30). -/
theorem step_of_event {s : State} {e : Event} {rest : List Event} (hw : s.params.wf = true)
    (ha : s.agenda = e :: rest) : step s = eventTurn e { s with agenda := rest } := by
  simp [step, hw, turn, ha]

theorem acceptOffer_of_command {s : State} {w : Word} {i : Instr} (hh : s.held = some w)
    (hd : decode s.params w = .command i) : acceptOffer s = exec i s := by
  simp [acceptOffer, hh, hd]

theorem acceptOffer_of_illegal {s : State} {w : Word} {c : Cause} (hp : s.pending = []) (hh : s.held = some w)
    (hd : decode s.params w = .illegal c) : acceptOffer s = .next (s.rejectedWith c.code) := by
  simp [acceptOffer, hh, hd, State.busy_eq_false.2 hp, State.raiseIllegal_eq]

/-- A busy block holds the offer, if there is one (R23). -/
theorem acceptOffer_of_busy {s : State} (hw : s.params.wf = true) (hp : s.pending ≠ []) :
    acceptOffer s = .next s := by
  obtain ⟨-, h⟩ | ⟨-, h⟩ | ⟨_, _, -, hidle, -, -⟩ | ⟨_, _, -, hidle, -, -, -⟩ := acceptOffer_cases s hw
  · exact h
  · exact h
  · exact absurd hidle hp
  · exact absurd hidle hp

/-- A step that accepts a word rejects it or performs its command, as the word decodes. -/
theorem State.acceptedNow_eq_some {s : State} {i : Instr} :
    s.acceptedNow = some i ↔ ∃ w, s.acceptedWord = some w ∧ decode s.params w = .command i := by
  unfold State.acceptedNow
  cases hw : s.acceptedWord with
  | none => simp
  | some w => cases hd : decode s.params w <;> simp [hd]

theorem State.acceptedNow_of_no_word {s : State} (h : s.acceptedWord = none) : s.acceptedNow = none := by
  simp [State.acceptedNow, h]

theorem State.acceptedNow_of_illegal {s : State} {w : Word} {c : Cause} (hw : s.acceptedWord = some w)
    (hd : decode s.params w = .illegal c) : s.acceptedNow = none := by
  simp [State.acceptedNow, hw, hd]

/-- The encoding of a command decodes to it wherever the command is legal (R74, R76, R80). -/
theorem decode_encode {p : Params} {i : Instr} (hi : Instr.wf p i = true) : decode p (encode i) = .command i :=
  decode_eq_command.2 ⟨decodePattern_encode i, illegality_eq_none.2 hi⟩

@[simp] theorem State.performed_emitted (s : State) (i : Instr) : (s.performed i).emitted = s.emitted := rfl
@[simp] theorem State.performed_pending (s : State) (i : Instr) : (s.performed i).pending = tokensOf s.params i := rfl
@[simp] theorem State.performed_result (s : State) (i : Instr) :
    (s.performed i).result = (lookupOf i).or s.result := rfl
@[simp] theorem State.afterEvent_emitted (s : State) : s.afterEvent.emitted = s.emitted := rfl

/-- The host's reads are no tokens (R11). -/
theorem tokensIn_concat_of_read {log : List Observation} {x : Observation} (hx : tokensIn [x] = []) :
    tokensIn (log ++ [x]) = tokensIn log := by
  rw [tokensIn_append, hx, List.append_nil]

end Sys2Proof.Machine
end

section
/-! The token stream (R23, R27, R59): one command at a time is in progress, and what is accepted and pending is
the tokens of the commands performed, in order. -/

namespace Sys2Proof.Machine

theorem OneCommand.of_idle {s : State} (h : s.pending = []) : OneCommand s := .inl h

/-- `OneCommand` speaks of the parameters, of what is pending and of what is emitted, and of nothing else. -/
theorem OneCommand.congr {s t : State} (h : OneCommand s) (hparams : t.params = s.params)
    (hpending : t.pending = s.pending) (hemitted : t.emitted = s.emitted) : OneCommand t := by
  unfold OneCommand
  rwa [hparams, hpending, hemitted]

/-- A command just performed has none of its tokens accepted. -/
theorem OneCommand.performed {s : State} {i : Instr} (hi : Instr.wf s.params i = true) :
    OneCommand (s.performed i) :=
  .inr ⟨i, [], hi, rfl, List.nil_suffix⟩

/-- The accepted token moves from the pending end of the command to its emitted end. -/
theorem OneCommand.acceptToken {s : State} {t : Token} {rest : List Token} (hp : s.pending = t :: rest)
    (h : OneCommand s) : OneCommand (s.acceptToken t rest) := by
  obtain hidle | ⟨i, done, hi, htokens, hdone⟩ := h
  · rw [hp] at hidle; cases hidle
  · refine .inr ⟨i, done ++ [t], hi, ?_, ?_⟩
    · rw [State.acceptToken_params, State.acceptToken_pending, htokens, hp, List.append_assoc, List.singleton_append]
    · obtain ⟨earlier, hearlier⟩ := hdone
      exact ⟨earlier, by rw [State.emitted_acceptToken, ← hearlier, List.append_assoc]⟩

/-- One command at a time over a step that is no reset, by what the step did. -/
theorem StepResult.oneCommand {s t : State} (hr : StepResult s t) (hs : OneCommand s) : OneCommand t := by
  have h : OneCommand s.afterEvent := hs.congr rfl rfl rfl
  cases hr with
  | unchanged => exact h
  | offer | rejected | deviceReset => exact h.congr rfl rfl rfl
  | performed w i hw hd hi => exact .performed hi
  | token hn tk rest hp => exact h.acceptToken hp
  | readStatus | readResult | readUnwritten => exact h.congr rfl rfl (tokensIn_concat_of_read rfl)

/-- Settles O43, by the inversion of `step`: a reset drops the command in progress, and every other step keeps at
most one. -/
theorem stepKeepsOneCommand : Obligations.StepKeepsOneCommand := by
  unfold Obligations.StepKeepsOneCommand
  intro s t hs h
  obtain ⟨-, ⟨-, -, -, rfl⟩ | ⟨-, hr⟩⟩ := step_next h
  · exact .of_idle (State.resetBlock_pending _)
  · exact hr.oneCommand hs

theorem StepResult.agenda_eq {s t : State} (h : StepResult s t) : t.agenda = s.agenda.tail := by
  cases h <;> rfl

/-- Where no command is performed, what is emitted and pending adds nothing to the stream. -/
theorem stream_eq_of_no_command {s t : State} (hnow : s.acceptedNow = none) (hemitted : t.emitted = s.emitted)
    (hpending : t.pending = s.pending) :
    t.emitted ++ t.pending = s.emitted ++ s.pending ++ s.acceptedNow.toList.flatMap (tokensOf s.params) := by
  simp [hnow, hemitted, hpending]

/-- A step that is no reset adds the tokens of the command it performs to the stream, and no others (R27, R59). -/
theorem StepResult.stream_eq {s t : State} (h : StepResult s t) :
    t.emitted ++ t.pending = s.emitted ++ s.pending ++ s.acceptedNow.toList.flatMap (tokensOf s.params) := by
  cases h with
  | unchanged hn | offer hn | deviceReset hn =>
    exact stream_eq_of_no_command (State.acceptedNow_of_no_word hn) rfl rfl
  | rejected w c hw hd => exact stream_eq_of_no_command (State.acceptedNow_of_illegal hw hd) rfl rfl
  | performed w i hw hd hi =>
    obtain ⟨-, hp, -⟩ := State.acceptedWord_eq_some.1 hw
    have hnow : s.acceptedNow = some i := State.acceptedNow_eq_some.2 ⟨w, hw, hd⟩
    simp [hnow, hp]
  | token hn tk rest hp => simp [State.acceptedNow_of_no_word hn, hp]
  | readStatus hn | readResult hn | readUnwritten hn =>
    exact stream_eq_of_no_command (State.acceptedNow_of_no_word hn) (tokensIn_concat_of_read rfl) rfl

theorem acceptedIn_succ {k : Nat} {s u : State} (h : step s = .next u) :
    acceptedIn (k + 1) s = s.acceptedNow.toList ++ acceptedIn k u := by
  rw [acceptedIn, h]

/-- Settles O44, by induction on the number of steps: the agenda loses its head in each, so no reset comes up. -/
theorem tokensFollowTheAcceptedCommands : Obligations.TokensFollowTheAcceptedCommands := by
  unfold Obligations.TokensFollowTheAcceptedCommands
  intro k
  induction k with
  | zero => intro s t _ h; cases h; simp [acceptedIn]
  | succ k ih =>
    intro s t hno h
    obtain ⟨u, hstep, hrun⟩ := runFrom_succ_next h
    obtain ⟨-, ⟨rest, ha, -, -⟩ | ⟨-, hr⟩⟩ := step_next hstep
    · simp [ha] at hno
    · have hnou : .reset ∉ u.agenda := fun hmem => hno (List.mem_of_mem_tail (hr.agenda_eq ▸ hmem))
      rw [ih u t hnou hrun, hr.stream_eq, hr.params_eq, acceptedIn_succ hstep, List.flatMap_append, List.append_assoc]

end Sys2Proof.Machine
end

section
/-! What is left alone and who writes what: resets, the host's reads, STATUS (R24, R25), RESULT (R26) and the record
of faults (R186). -/

namespace Sys2Proof.Machine

/-- Settles O41: nothing is pending, observed or known at reset. -/
theorem resetMeetsTheInvariant : Obligations.ResetMeetsTheInvariant := by
  unfold Obligations.ResetMeetsTheInvariant
  exact ⟨⟨by decide, rfl, rfl, rfl⟩, .of_idle rfl⟩

theorem State.resetBlock_device_of_closed {s : State} (h : s.transactionOpen = false) :
    s.resetBlock.device = s.device := by
  simp [State.resetBlock, h]

/-- A reset leaves the observation as it is, or marks the cut in it (R182). -/
theorem State.resetBlock_log_cases (s : State) :
    s.resetBlock.log = s.log ∨ s.resetBlock.log = s.log ++ [.unterminated] := by
  unfold State.resetBlock
  split
  · exact .inr rfl
  · exact .inl rfl

/-- Settles O32, by the fields of `State.resetBlock`. -/
theorem resetLeavesHostAndDevice : Obligations.ResetLeavesHostAndDevice := by
  unfold Obligations.ResetLeavesHostAndDevice
  intro s rest hw ha
  refine ⟨_, step_of_event hw ha, State.resetBlock_held _, State.resetBlock_agenda _,
    State.resetBlock_transportFair _, State.resetBlock_freeReads _, fun hclosed offset => ?_⟩
  rw [State.resetBlock_device_of_closed (s := { s with agenda := rest }) hclosed]

/-- Settles O21: the command is held or performed, since one the parameters allow is not rejected. -/
theorem commandsLeaveTheRest : Obligations.CommandsLeaveTheRest := by
  unfold Obligations.CommandsLeaveTheRest
  intro i s t hi h
  obtain ⟨-, ⟨-, rfl⟩ | ⟨-, c, hl, -⟩ | ⟨hp, -, rfl⟩⟩ := exec_next h
  · simp
  · rw [illegality_eq_none.2 hi] at hl; cases hl
  · refine ⟨rfl, rfl, rfl, rfl, rfl, rfl, rfl, fun _ => rfl, fun _ => rfl, fun hbus => ?_, fun hlookup => ?_⟩
    · rw [State.performed_result, hbus, Option.none_or]
    · rw [State.performed_pending, hlookup, hp]

/-- ERR and CAUSE over a step that is no reset: only a rejection with ERR = 0 before it changes either (R25). -/
theorem StepResult.err_cause_eq_or_rejects {s t : State} (h : StepResult s t) :
    (t.err = s.err ∧ t.cause = s.cause) ∨
      (s.err = false ∧ ∃ w c, s.acceptedWord = some w ∧ decode s.params w = .illegal c) := by
  cases h with
  | rejected w c hw hd =>
    cases herr : s.err with
    | false => exact .inr ⟨rfl, w, c, hw, hd⟩
    | true => exact .inl ⟨rfl, by simp [herr]⟩
  | unchanged | offer | performed | token | readStatus | readResult | readUnwritten | deviceReset =>
    exact .inl ⟨rfl, rfl⟩

/-- Settles O26: a rejection and a reset field by field, then the inversion of `step`. -/
theorem errAndCauseWritten : Obligations.ErrAndCauseWritten := by
  unfold Obligations.ErrAndCauseWritten
  refine ⟨?rejects, ?resets, ?only⟩
  case rejects =>
    intro s t w c hs hw hd h
    obtain ⟨-, hp, hh⟩ := State.acceptedWord_eq_some.1 hw
    rw [step_of_acceptedWord hs hw, acceptOffer_of_illegal (s := s.afterEvent) hp hh hd] at h
    cases h
    exact ⟨rfl, rfl⟩
  case resets =>
    intro s t rest hw ha h
    rw [step_of_event hw ha] at h
    cases h
    exact ⟨State.resetBlock_err _, State.resetBlock_cause _⟩
  case only =>
    intro s t h hchange
    obtain ⟨-, ⟨rest, ha, -, -⟩ | ⟨-, hr⟩⟩ := step_next h
    · exact .inl ⟨rest, ha⟩
    · obtain ⟨herr, hcause⟩ | hrejects := hr.err_cause_eq_or_rejects
      · exact absurd hchange (by simp [herr, hcause])
      · exact .inr hrejects

/-- The fields of the STATUS byte, for all values of its parts (R24). -/
theorem statusByte_fields (cause : BitVec 4) (err busy : Bool) :
    let status : BitVec 8 := cause ++ 0#2 ++ BitVec.ofBool err ++ BitVec.ofBool busy
    (status.extractLsb' 0 1 = 1#1 ↔ busy = true) ∧ (status.extractLsb' 1 1 = 1#1 ↔ err = true) ∧
      status.extractLsb' 2 2 = 0#2 ∧ status.extractLsb' 4 4 = cause := by
  revert cause err busy
  decide

theorem State.cause_eq_zero_of_coherent {s : State} (h : s.statusCoherent = true) (he : s.err = false) :
    s.cause = 0 := by
  simpa [State.statusCoherent, he] using h

/-- Settles O28: the fields by `statusByte_fields`, the read by the turn of its event. -/
theorem statusReadsItsFields : Obligations.StatusReadsItsFields := by
  unfold Obligations.StatusReadsItsFields
  refine ⟨fun s => ?_, fun s rest hw ha => step_of_event hw ha,
    fun s hs he => State.cause_eq_zero_of_coherent hs.coherent he, rfl⟩
  obtain ⟨hbusy, herr, hzero, hcause⟩ := statusByte_fields s.cause s.err s.busy
  exact ⟨hbusy.trans State.busy_eq_true, herr, hzero, hcause⟩

/-- The three lanes of a written RESULT (R26). -/
theorem LookupResult.value_lanes (r : LookupResult) :
    r.value.extractLsb' 0 12 = r.res0 ∧ r.value.extractLsb' 12 12 = r.res1 ∧
      r.value.extractLsb' 24 12 = r.res2 := by
  unfold LookupResult.value
  refine ⟨?_, ?_, ?_⟩
  · exact BitVec.extractLsb'_append_eq_right
  · rw [BitVec.extractLsb'_append_eq_of_le (by decide)]
    exact BitVec.extractLsb'_append_eq_right
  · rw [BitVec.extractLsb'_append_eq_of_le (by decide)]
    exact BitVec.extractLsb'_append_eq_left

/-- RESULT over a step that is no reset: only a lookup writes it (R26). -/
theorem StepResult.result_eq_or_lookup {s t : State} (h : StepResult s t) :
    t.result = s.result ∨ ∃ i r, s.acceptedNow = some i ∧ lookupOf i = some r ∧ t.result = some r := by
  cases h with
  | performed w i hw hd hi =>
    cases hlookup : lookupOf i with
    | none => exact .inl (by simp [hlookup])
    | some r => exact .inr ⟨i, r, State.acceptedNow_eq_some.2 ⟨w, hw, hd⟩, hlookup, by simp [hlookup]⟩
  | unchanged | offer | rejected | token | readStatus | readResult | readUnwritten | deviceReset => exact .inl rfl

/-- The host's read of RESULT (R26); with nothing written it is `State.readUnwritten`. -/
theorem hostRead_result_of_some {s : State} {r : LookupResult} (h : s.result = some r) :
    hostRead .result s = .next { s with log := s.log ++ [.result r.value] } := by
  simp [hostRead, h]

theorem hostRead_result_of_none {s : State} (h : s.result = none) :
    hostRead .result s = .next s.readUnwritten := by
  simp [hostRead, h]

/-- Settles O29: the lanes, the two reads, and the writers by the inversion of `step`. -/
theorem resultReadAndWriters : Obligations.ResultReadAndWriters := by
  unfold Obligations.ResultReadAndWriters
  refine ⟨LookupResult.value_lanes, ?written, ?unwritten, ?writers, rfl⟩
  case written =>
    intro s rest r hw ha hr
    rw [step_of_event hw ha]
    exact hostRead_result_of_some hr
  case unwritten =>
    intro s rest hw ha hr
    rw [step_of_event hw ha]
    exact ⟨_, hostRead_result_of_none hr⟩
  case writers =>
    intro s t h hchange
    obtain ⟨-, ⟨rest, ha, -, rfl⟩ | ⟨-, hr⟩⟩ := step_next h
    · exact .inl ⟨rest, ha, State.resetBlock_result _⟩
    · exact .inr (hr.result_eq_or_lookup.resolve_left hchange)

/-- A step only adds to the observation, and adds a recorded fault only by the read of an unwritten RESULT. -/
theorem step_log {s t : State} (h : step s = .next t) :
    ∃ new, t.log = s.log ++ new ∧
      (new.any Observation.isFault = true → (∃ rest, s.agenda = .read .result :: rest) ∧ s.result = none) := by
  obtain ⟨-, ⟨-, -, -, rfl⟩ | ⟨-, hr⟩⟩ := step_next h
  · obtain hlog | hlog := s.afterEvent.resetBlock_log_cases
    · exact ⟨[], by simpa using hlog, by simp⟩
    · exact ⟨[.unterminated], hlog, by simp [Observation.isFault]⟩
  · cases hr with
    | unchanged | offer | rejected | performed | deviceReset => exact ⟨[], (List.append_nil _).symm, by simp⟩
    | token | readStatus | readResult => exact ⟨_, rfl, by simp [Observation.isFault]⟩
    | readUnwritten hn ha hr => exact ⟨_, rfl, fun _ => ⟨ha, hr⟩⟩

/-- A recorded fault stays through a step, reset or not (R186). -/
theorem faultRecorded_step {s t : State} (hs : s.faultRecorded = true) (h : step s = .next t) :
    t.faultRecorded = true := by
  obtain ⟨new, hlog, -⟩ := step_log h
  unfold State.faultRecorded at hs ⊢
  rw [hlog, List.any_append, hs, Bool.true_or]

/-- Settles O50, by `step_log` for a step and by induction on the number of steps for a run. -/
theorem unwrittenReadStaysRecorded : Obligations.UnwrittenReadStaysRecorded := by
  unfold Obligations.UnwrittenReadStaysRecorded
  refine ⟨rfl, ?step, ?run⟩
  case step =>
    intro s t h hs
    constructor
    · intro ht
      obtain ⟨new, hlog, hnew⟩ := step_log h
      unfold State.faultRecorded at hs ht
      rw [hlog, List.any_append, hs, Bool.false_or] at ht
      exact hnew ht
    · rintro ⟨⟨rest, ha⟩, hr⟩
      obtain ⟨hw, -⟩ := step_next h
      have hread := (step_of_event hw ha).trans (hostRead_result_of_none hr)
      rw [hread] at h
      cases h
      simp [State.faultRecorded, Observation.isFault]
  case run =>
    intro k
    induction k with
    | zero => intro s t hs h; cases h; exact hs
    | succ k ih =>
      intro s t hs h
      obtain ⟨u, hstep, hrun⟩ := runFrom_succ_next h
      exact ih u t (faultRecorded_step hs hstep) hrun

end Sys2Proof.Machine
end

section
/-! The command interface and the transport, turn by turn (R22, R23, R27, R30). -/

namespace Sys2Proof.Machine

/-- Settles O33: the turns of `accept`, `present` and `withdraw`, and `exec` on a busy block. -/
theorem offerIsAcceptedOrHeld : Obligations.OfferIsAcceptedOrHeld := by
  unfold Obligations.OfferIsAcceptedOrHeld
  refine ⟨?accepts, ?holds, ?busy, ?presents, ?withdraws⟩
  case accepts =>
    intro s rest w hw ha hp hh
    rw [step_of_event hw ha, eventTurn]
    cases hd : decode s.params w with
    | illegal c => exact acceptOffer_of_illegal (s := { s with agenda := rest }) hp hh hd
    | command i => exact acceptOffer_of_command (s := { s with agenda := rest }) hh hd
  case holds =>
    intro s rest hw ha hp
    rw [step_of_event hw ha]
    exact acceptOffer_of_busy (s := { s with agenda := rest }) hw hp
  case busy => exact fun i s hw hp => exec_of_busy i hw (State.busy_eq_true.2 hp)
  case presents => exact fun s rest w hw ha _ => step_of_event hw ha
  case withdraws => exact fun s rest hw ha => step_of_event hw ha

/-- Settles O34: the turn of `present` does not look at the held word. -/
theorem newOfferReplacesTheHeld : Obligations.NewOfferReplacesTheHeld := by
  unfold Obligations.NewOfferReplacesTheHeld
  exact fun s rest w v hw ha _ => step_of_event hw ha

theorem tableWord_32 (w : Nat) : tableWord 32 w = BitVec.ofNat 32 w := by
  apply BitVec.eq_of_toNat_eq
  simp [tableWord]

/-- The command of a table word is the command its pattern decodes to. -/
theorem decodeTableWord_eq_some {nbits w : Nat} {i : Instr} :
    decodeTableWord nbits w = some i ↔ decodePattern (tableWord nbits w) = .command i := by
  unfold decodeTableWord
  cases decodePattern (tableWord nbits w) <;> simp

/-- In an idle block the placed word is a plain offer with the turn (log 6). -/
theorem State.withFetchWord_of_idle {s : State} (hp : s.pending = []) (nbits w : Nat) :
    s.withFetchWord nbits w = { s with held := some (tableWord nbits w), agenda := .accept :: s.agenda } := by
  simp [State.withFetchWord, State.offerNext, State.acceptAll, hp]

/-- Settles O35: each of the three turns is the command interface's, and the word decodes to the command. -/
theorem stepRunsTheDecodedCommand : Obligations.StepRunsTheDecodedCommand := by
  unfold Obligations.StepRunsTheDecodedCommand
  refine ⟨?self, ?agenda, ?fetch⟩
  case self =>
    intro s w i hw ha hp hh hd
    rw [step_of_idle hw ha hp, acceptOffer_of_command hh hd]
  case agenda =>
    intro s rest w i hw ha hh hd
    rw [step_of_event hw ha]
    exact acceptOffer_of_command (s := { s with agenda := rest }) hh hd
  case fetch =>
    intro s w i hw hp hi hd
    have hdecode : decode s.params (BitVec.ofNat 32 w) = .command i := by
      rw [← tableWord_32]
      exact decode_eq_command.2 ⟨decodeTableWord_eq_some.1 hd, illegality_eq_none.2 hi⟩
    rw [State.withFetchWord_of_idle hp, tableWord_32]
    refine (step_of_event ?_ rfl).trans ?_
    · exact hw
    · exact acceptOffer_of_command (s := { s with held := some (BitVec.ofNat 32 w) }) rfl hdecode

theorem transportTurn_of_pending {s : State} {t : Token} {ts : List Token} (hp : s.pending = t :: ts) :
    transportTurn s = .next (s.acceptToken t ts) := by
  simp [transportTurn, hp]

/-- Settles O36: both turns are the transport's. -/
theorem transportTakesTheFirstToken : Obligations.TransportTakesTheFirstToken := by
  unfold Obligations.TransportTakesTheFirstToken
  refine ⟨fun s rest t ts hw ha hp => ?_, fun s t ts hw ha hf hp => step_of_pending hw ha hf hp⟩
  rw [step_of_event hw ha]
  exact transportTurn_of_pending (s := { s with agenda := rest }) hp

end Sys2Proof.Machine
end

section
/-! Tokens by plain arithmetic: the two bytes of a tick count (R54), the pair (R113, R115), a group's transaction
(R118, R131). -/

namespace Sys2Proof.Machine

theorem loByte_eq_ofNat (v : Tick) : loByte v = BitVec.ofNat 8 (v.toNat % 256) := by
  apply BitVec.eq_of_toNat_eq
  simp [loByte, BitVec.extractLsb'_toNat]

theorem hiByte_eq_ofNat (v : Tick) : hiByte v = BitVec.ofNat 8 (v.toNat / 256) := by
  apply BitVec.eq_of_toNat_eq
  have hv := v.isLt
  have hdiv : (hiByte v).toNat = v.toNat / 256 % 16 := by
    simpa [hiByte, BitVec.extractLsb'_toNat, Nat.shiftRight_eq_div_pow] using by omega
  rw [hdiv, BitVec.toNat_ofNat]
  omega

/-- The off edge is the count after the on edge, in 12-bit arithmetic (R113). -/
theorem pwmPair_off (phase count : Tick) : (pwmPair phase count).off = phase + count := by
  apply BitVec.eq_of_toNat_eq
  simp [pwmPair]

/-- The four bytes of a channel are those of the plain arithmetic (R54, R113, R117). -/
theorem channelBytes_eq_channelByArithmetic (p : Params) (g : Nat) (level : Byte) :
    channelBytes p g level = channelByArithmetic p g level := by
  simp only [channelBytes, pairBytes, channelByArithmetic, loByte_eq_ofNat, hiByte_eq_ofNat, pwmPair_off,
    BitVec.toNat_add]
  rfl

/-- A group's transaction is that of the plain arithmetic (R52, R118, R131). -/
theorem groupTxn_eq_groupByArithmetic (p : Params) (g : Nat) (levels : List Byte) :
    groupTxn p g levels = groupByArithmetic p g levels := by
  have hchannel : channelBytes p g = channelByArithmetic p g := funext (channelBytes_eq_channelByArithmetic p g)
  simp [groupTxn, txn, groupBase, groupBytes, groupByArithmetic, hchannel]

theorem allGroupsTxns_eq_groupByArithmetic (p : Params) (levels : List Byte) :
    allGroupsTxns p levels = (List.range p.groups).flatMap fun g => groupByArithmetic p g levels := by
  simp [allGroupsTxns, groupTxn_eq_groupByArithmetic]

/-- BEGIN, the start register, four bytes a channel, END (R140). -/
theorem length_groupTxn (p : Params) (g : Nat) (levels : List Byte) :
    (groupTxn p g levels).length = 4 * levels.length + 3 := by
  simp [groupTxn, txn, length_groupBytes]

theorem length_groupByArithmetic (p : Params) (g : Nat) (levels : List Byte) :
    (groupByArithmetic p g levels).length = 4 * levels.length + 3 := by
  rw [← groupTxn_eq_groupByArithmetic, length_groupTxn]

/-- The corner levels: fully off and fully on (R115). -/
theorem pwmPair_off_corners (phase : Tick) :
    (pwmPair phase (rom 0)).off = phase ∧ (pwmPair phase (rom 255)).off = phase - 1 := by
  have hoff : rom 0 = 0 := by decide
  have hon : rom 255 = -1 := by decide
  rw [pwmPair_off, pwmPair_off, hoff, hon, BitVec.sub_eq_add_neg]
  exact ⟨BitVec.add_zero phase, rfl⟩

end Sys2Proof.Machine
end

section
/-! What every bus command has in common: its completion, BUSY until its last END, and its two kinds of rejection. -/

namespace Sys2Proof.Machine

/-- A bus command performed by an idle block makes its tokens pending and takes the offer; nothing else changes
(R30). -/
theorem exec_of_bus {i : Instr} {s : State} (hw : s.params.wf = true) (hp : s.pending = [])
    (hi : Instr.wf s.params i = true) (hbus : lookupOf i = none) :
    exec i s = .next { s with held := none, pending := tokensOf s.params i } := by
  rw [exec_of_wf hw hp hi, State.performed, hbus, Option.none_or]

/-- With a fair transport and no other event BUSY is 1 until the last pending token is accepted (R24, R30). -/
theorem busyUntilLastEnd_pending {t : State} (hw : t.params.wf = true) : BusyUntilLastEnd t t.pending := by
  intro ha hf k hk
  obtain ⟨u, hrun, hemitted, hu⟩ := runFrom_of_pending t.pending t hw ha hf rfl k hk
  exact ⟨u, hrun, State.busy_of_drop (by rw [hu]), hemitted⟩

/-- The completion of a bus command, as its obligation states it. -/
theorem exec_bus_completes {i : Instr} {s : State} {ts : List Token} (hw : s.params.wf = true)
    (hp : s.pending = []) (hi : Instr.wf s.params i = true) (hbus : lookupOf i = none)
    (hts : tokensOf s.params i = ts) :
    ∃ t, exec i s = .next t ∧ t = { s with held := none, pending := ts } ∧ BusyUntilLastEnd t ts := by
  subst hts
  exact ⟨_, exec_of_bus hw hp hi hbus, rfl, busyUntilLastEnd_pending hw⟩

/-- A word whose unused fields are not all zero is rejected with cause 2 (R72, R161). -/
theorem acceptOffer_of_sbz {s : State} {w : Word} (hp : s.pending = []) (hh : s.held = some w)
    (hd : decodePattern w = .illegal .sbzNonzero) : acceptOffer s = .next (s.rejectedWith 2) :=
  acceptOffer_of_illegal hp hh (decode_of_pattern_illegal hd)

/-- The opcode of a word under the mask of R73. -/
theorem opField_of_masked {w : Word} {op : BitVec 4} (h : w &&& 0xF0000000#32 = assembleFields op 0 0 0 0) :
    opField w = op := by
  obtain ⟨hop, -⟩ := (masked_eq_iff w 0xF op 0 0 0 0 0 0 0 0).1 h
  rwa [show (0xF : BitVec 4) = BitVec.allOnes 4 from rfl, BitVec.and_allOnes] at hop

/-- Masked fields that are all zero make a masked word zero. -/
theorem masked_eq_zero {w : Word} {grp : GroupIndex} {a b c : Byte} (hgrp : grpField w &&& grp = 0)
    (ha : aField w &&& a = 0) (hb : bField w &&& b = 0) (hc : cField w &&& c = 0) :
    w &&& assembleFields 0 grp a b c = 0#32 :=
  (masked_eq_iff w 0 0 grp 0 a 0 b 0 c 0).2 ⟨BitVec.and_zero, hgrp, ha, hb, hc⟩

end Sys2Proof.Machine
end

section
/-! Which bus commands are legal where, and the cause of those that are not (R76, R162, R163). -/

namespace Sys2Proof

/-- SETALL.RGB is legal exactly where a group has more than one channel (R76). -/
theorem wf_setallRgb {p : Params} {red green blue : Byte} :
    Instr.wf p (.setallRgb red green blue) = true ↔ p.channels ≠ 1 := by
  simp [Instr.wf, Instr.shapeOk, Instr.groupOk]

/-- SETGRP.GREY is legal exactly for the groups below `N` (R76). -/
theorem wf_setgrpGrey {p : Params} {group : GroupIndex} {level : Byte} :
    Instr.wf p (.setgrpGrey group level) = true ↔ group.toNat < p.groups := by
  simp [Instr.wf, Instr.shapeOk, Instr.groupOk]

/-- SETGRP.RGB is legal exactly where both hold (R76). -/
theorem wf_setgrpRgb {p : Params} {group : GroupIndex} {red green blue : Byte} :
    Instr.wf p (.setgrpRgb group red green blue) = true ↔ p.channels ≠ 1 ∧ group.toNat < p.groups := by
  simp [Instr.wf, Instr.shapeOk, Instr.groupOk]

/-- With one channel SETALL.RGB is illegal with cause 3. -/
theorem illegality_setallRgb_of_shape {p : Params} (red green blue : Byte) (hW : p.channels = 1) :
    illegality p (.setallRgb red green blue) = some .shapeMismatch := by
  simp [illegality, shapeCause, hW]

/-- A group from `N` up is illegal in SETGRP.GREY with cause 4. -/
theorem illegality_setgrpGrey_of_group {p : Params} {group : GroupIndex} (level : Byte)
    (hg : p.groups ≤ group.toNat) : illegality p (.setgrpGrey group level) = some .groupRange := by
  simp [illegality, groupCause, hg]

/-- With one channel a SETGRP.RGB is illegal with cause 3, whatever its group (R163). -/
theorem illegality_setgrpRgb_of_shape {p : Params} (group : GroupIndex) (red green blue : Byte)
    (hW : p.channels = 1) : illegality p (.setgrpRgb group red green blue) = some .shapeMismatch := by
  simp [illegality, shapeCause, hW]

/-- With three channels a SETGRP.RGB for a group from `N` up is illegal with cause 4. -/
theorem illegality_setgrpRgb_of_group {p : Params} {group : GroupIndex} (red green blue : Byte)
    (hW : p.channels ≠ 1) (hg : p.groups ≤ group.toNat) :
    illegality p (.setgrpRgb group red green blue) = some .groupRange := by
  simp [illegality, shapeCause, groupCause, hW, hg]

end Sys2Proof
end

section
/-! The five bus commands (R130 to R139): completion, encoding, rejections, example. -/

namespace Sys2Proof.Machine

/-- Settles O16: the two mode writes are the tokens by definition. -/
theorem initEmitsModeWrites : Obligations.InitEmitsModeWrites := by
  unfold Obligations.InitEmitsModeWrites
  refine ⟨?completes, fun p => decode_encode (i := .init) rfl, ?rejects, by decide⟩
  case completes =>
    intro s hw hp
    obtain ⟨t, hexec, ht, hbusy⟩ := exec_bus_completes (i := .init) hw hp rfl rfl rfl
    exact ⟨t, _, hexec, rfl, ht, hbusy⟩
  case rejects =>
    intro s w _ hp hh hop hunused
    apply acceptOffer_of_sbz hp hh
    rw [decodePattern_of_op1 (opField_of_masked hop), if_neg]
    rintro ⟨hgrp, ha, hb, hc⟩
    exact hunused (masked_eq_zero (grp := 0xF) (a := 0xFF) (b := 0xFF) (c := 0xFF) (by simp [hgrp]) (by simp [ha])
      (by simp [hb]) (by simp [hc]))

/-- Settles O17: the groups' transactions are those of the plain arithmetic. -/
theorem setallGreyEmitsAllGroups : Obligations.SetallGreyEmitsAllGroups := by
  unfold Obligations.SetallGreyEmitsAllGroups
  refine ⟨?completes, fun p level => decode_encode (i := .setallGrey level) rfl, ?rejects, pwmPair_off_corners,
    by decide⟩
  case completes =>
    intro s level hw hp
    obtain ⟨t, hexec, ht, hbusy⟩ := exec_bus_completes (i := .setallGrey level) hw hp rfl rfl
      (allGroupsTxns_eq_groupByArithmetic s.params (greyLevels s.params level))
    exact ⟨t, _, hexec, rfl, ht, hbusy⟩
  case rejects =>
    intro s w _ hp hh hop hunused
    apply acceptOffer_of_sbz hp hh
    rw [decodePattern_of_op2 (opField_of_masked hop), if_neg]
    rintro ⟨hgrp, hb, hc⟩
    exact hunused (masked_eq_zero (grp := 0xF) (a := 0) (b := 0xFF) (c := 0xFF) (by simp [hgrp]) BitVec.and_zero
      (by simp [hb]) (by simp [hc]))

/-- Settles O18: the completion as for SETALL.GREY, with the RGB legality. -/
theorem setallRgbEmitsAllGroups : Obligations.SetallRgbEmitsAllGroups := by
  unfold Obligations.SetallRgbEmitsAllGroups
  refine ⟨?completes, fun p red green blue hW => decode_encode (i := .setallRgb red green blue) (wf_setallRgb.2 hW),
    ?rejects, ?rejectsShape, by decide, by decide⟩
  case completes =>
    intro s red green blue hw hW hp
    obtain ⟨t, hexec, ht, hbusy⟩ := exec_bus_completes (i := .setallRgb red green blue) hw hp
      (wf_setallRgb.2 (by omega)) rfl (allGroupsTxns_eq_groupByArithmetic s.params (rgbLevels red green blue))
    exact ⟨t, _, hexec, rfl, ht, hbusy⟩
  case rejects =>
    intro s w _ hp hh hop hunused
    apply acceptOffer_of_sbz hp hh
    rw [decodePattern_of_op3 (opField_of_masked hop), if_neg]
    intro hgrp
    exact hunused (masked_eq_zero (grp := 0xF) (a := 0) (b := 0) (c := 0) (by simp [hgrp]) BitVec.and_zero
      BitVec.and_zero BitVec.and_zero)
  case rejectsShape =>
    intro s red green blue hw hW hp
    exact exec_of_illegality hw hp (illegality_setallRgb_of_shape red green blue hW)

/-- Settles O19: one group's transaction, by the plain arithmetic. -/
theorem setgrpGreyEmitsOneGroup : Obligations.SetgrpGreyEmitsOneGroup := by
  unfold Obligations.SetgrpGreyEmitsOneGroup
  refine ⟨?completes, fun p group level hg => decode_encode (i := .setgrpGrey group level) (wf_setgrpGrey.2 hg),
    ?rejects, ?rejectsGroup, by decide⟩
  case completes =>
    intro s group level hw hg hp
    obtain ⟨t, hexec, ht, hbusy⟩ := exec_bus_completes (i := .setgrpGrey group level) hw hp (wf_setgrpGrey.2 hg)
      rfl (groupTxn_eq_groupByArithmetic s.params group.toNat (greyLevels s.params level))
    refine ⟨t, _, hexec, rfl, ?_, ht, hbusy⟩
    rw [length_groupByArithmetic, List.length_replicate]
  case rejects =>
    intro s w _ hp hh hop hunused
    apply acceptOffer_of_sbz hp hh
    rw [decodePattern_of_op4 (opField_of_masked hop), if_neg]
    rintro ⟨hb, hc⟩
    exact hunused (masked_eq_zero (grp := 0) (a := 0) (b := 0xFF) (c := 0xFF) BitVec.and_zero BitVec.and_zero
      (by simp [hb]) (by simp [hc]))
  case rejectsGroup =>
    intro s group level hw hg hp
    exact exec_of_illegality hw hp (illegality_setgrpGrey_of_group level hg)

/-- Equal channels are grey (R132). -/
theorem rgbLevels_self {p : Params} (level : Byte) (hW : p.channels = 3) :
    rgbLevels level level level = greyLevels p level := by
  rw [greyLevels, hW]; rfl

/-- Settles O20: one group's transaction; equal channels are the grey levels. -/
theorem setgrpRgbEmitsOneGroup : Obligations.SetgrpRgbEmitsOneGroup := by
  unfold Obligations.SetgrpRgbEmitsOneGroup
  refine ⟨?completes, ?decodes, ?rejectsShape, ?rejectsGroup, ?grey, by decide⟩
  case completes =>
    intro s group red green blue hw hW hg hp
    obtain ⟨t, hexec, ht, hbusy⟩ := exec_bus_completes (i := .setgrpRgb group red green blue) hw hp
      (wf_setgrpRgb.2 ⟨by omega, hg⟩) rfl
      (groupTxn_eq_groupByArithmetic s.params group.toNat (rgbLevels red green blue))
    exact ⟨t, _, hexec, rfl, length_groupByArithmetic _ _ _, ht, hbusy⟩
  case decodes =>
    intro p group red green blue hW hg
    exact decode_encode (i := .setgrpRgb group red green blue) (wf_setgrpRgb.2 ⟨hW, hg⟩)
  case rejectsShape =>
    intro s group red green blue hw hW hp
    exact exec_of_illegality hw hp (illegality_setgrpRgb_of_shape group red green blue hW)
  case rejectsGroup =>
    intro s group red green blue hw hW hg hp
    exact exec_of_illegality hw hp (illegality_setgrpRgb_of_group red green blue (by omega) hg)
  case grey =>
    intro p group level hW
    rw [tokensOf, tokensOf, rgbLevels_self level hW]

end Sys2Proof.Machine
end

section
/-! Every command completes in its count of transport steps (R30, R140, R190). -/

namespace Sys2Proof.Machine

/-- A legal command offered to an idle block with nothing on the agenda is performed in one step. -/
theorem step_performs {s : State} {i : Instr} (hw : s.params.wf = true) (hi : Instr.wf s.params i = true)
    (hp : s.pending = []) (ha : s.agenda = []) (hh : s.held = some (encode i)) :
    step s = .next (s.performed i) := by
  rw [step_of_idle hw ha hp, acceptOffer_of_command hh (decode_encode hi), exec_of_wf hw hp hi]

theorem runFrom_one_add {s u : State} (k : Nat) (h : step s = .next u) : runFrom (1 + k) s = runFrom k u := by
  rw [Nat.add_comm, runFrom, h]

/-- Settles O45: the command is performed in the first step, and the transport takes its tokens one a step. -/
theorem commandCompletes : Obligations.CommandCompletes := by
  unfold Obligations.CommandCompletes
  intro s i hw hi hp ha hf hh k hk
  obtain ⟨u, hrun, hemitted, hu⟩ := runFrom_of_pending (tokensOf s.params i) (s.performed i) hw ha hf rfl k hk
  refine ⟨u, ?_, State.busy_of_drop (by rw [hu]), hemitted, by rw [hu]; rfl, by rw [hu]; rfl, by rw [hu]; rfl, ?_⟩
  · rw [runFrom_one_add k (step_performs hw hi hp ha hh), hrun]
  · rw [hu]
    cases hlookup : lookupOf i <;> simp [hlookup]

end Sys2Proof.Machine
end

section
/-! The place of a group in the device map (R51, R52), and the bytes of one of its channels (R54, R118). -/

namespace Sys2Proof.Machine

/-- The registers of the groups take `4 * W * N ≤ 64` offsets at most (R6). -/
theorem group_blocks_le {p : Params} {g : Nat} (hp : p.wf = true) (hg : g < p.groups) :
    4 * p.channels * g + 4 * p.channels ≤ 64 := by
  obtain ⟨-, -, hNW, -, -⟩ := Params.wf_iff.1 hp
  calc 4 * p.channels * g + 4 * p.channels = 4 * ((g + 1) * p.channels) := by ring
    _ ≤ 4 * (p.groups * p.channels) := Nat.mul_le_mul_left _ (Nat.mul_le_mul_right _ hg)
    _ ≤ 64 := by omega

/-- The start register of a group does not wrap (R52). -/
theorem toNat_groupBase {p : Params} {g : Nat} (hp : p.wf = true) (hg : g < p.groups) :
    (groupBase p g).toNat = 0x06 + 4 * p.channels * g := by
  have hroom := group_blocks_le hp hg
  rw [groupBase, BitVec.toNat_ofNat]
  omega

/-- Settles O12: no start register wraps, and a group's blocks are `4 * W` long. -/
theorem groupPlacement : Obligations.GroupPlacement := by
  unfold Obligations.GroupPlacement
  refine ⟨fun p g hp hg => ⟨toNat_groupBase hp hg, ?ends, fun hnext => ?adjacent⟩, by decide⟩
  case ends =>
    have hroom := group_blocks_le hp hg
    rw [toNat_groupBase hp hg]
    omega
  case adjacent =>
    rw [toNat_groupBase hp hg, toNat_groupBase hp hnext]
    ring

/-- The bytes of a channel stand in its own four places of the payload (R114, R118). -/
theorem take_drop_groupBytes (p : Params) (g : Nat) {levels : List Byte} {k : Nat} {l : Byte}
    (hl : levels[k]? = some l) : ((groupBytes p g levels).drop (4 * k)).take 4 = channelBytes p g l := by
  induction levels generalizing k with
  | nil => cases hl
  | cons m ls ih =>
    cases k with
    | zero =>
      obtain rfl : m = l := by simpa using hl
      rfl
    | succ k => exact ih (k := k) (by simpa using hl)

theorem getElem?_groupBytes (p : Params) (g : Nat) {levels : List Byte} {k j : Nat} {l : Byte}
    (hl : levels[k]? = some l) (hj : j < 4) :
    (groupBytes p g levels)[4 * k + j]? = (channelByArithmetic p g l)[j]? := by
  rw [← channelBytes_eq_channelByArithmetic, ← take_drop_groupBytes p g hl, List.getElem?_take_of_lt hj,
    List.getElem?_drop]

/-- Settles O10: the two bytes are the quotient and the remainder by 256, and a tick count is below 4096. -/
theorem tickBytes : Obligations.TickBytes := by
  unfold Obligations.TickBytes
  refine ⟨fun v => ?_, fun _ => rfl, by decide⟩
  have hv := v.isLt
  rw [loByte_eq_ofNat, hiByte_eq_ofNat, BitVec.toNat_ofNat, BitVec.toNat_ofNat]
  omega

end Sys2Proof.Machine
end

section
/-! The device register space as R57 reads the token stream: what is known of it, what a transaction leaves in it,
and where a command run to its end leaves the device. -/

namespace Sys2Proof.Machine

/-- Between transactions a ready device claims what it has stored (R57). -/
theorem Device.register_of_ready {d : Device} (hbus : d.bus = .idle) (hd : d.initDone = true) (offset : Byte) :
    d.register offset = d.regs.read offset.toNat := by
  simp [Device.register, hbus, hd, BusPhase.touches]

theorem Device.register_of_not_initDone {d : Device} (hd : d.initDone = false) (offset : Byte) :
    d.register offset = none := by
  simp [Device.register, hd]

/-- Settles O49: only a ready device claims a register, and a device just reset is not ready. -/
theorem noDeviceClaimBeforeInit : Obligations.NoDeviceClaimBeforeInit := by
  unfold Obligations.NoDeviceClaimBeforeInit
  refine ⟨fun d offset hd => Device.register_of_not_initDone hd offset, fun s rest hw ha => ?_⟩
  exact ⟨_, step_of_event hw ha, rfl, Device.register_of_not_initDone rfl⟩

/-- Writes make no known register unknown. -/
theorem Memory.isSome_read_writeBytes {m : Memory} {x : Nat} (start : Nat) (ds : List Byte)
    (h : (m.read x).isSome = true) : ((m.writeBytes start ds).read x).isSome = true := by
  rw [Memory.read_writeBytes]
  split
  · rw [List.getElem?_eq_getElem (by omega), Option.isSome_some]
  · exact h

/-- A ready device stays ready whatever is written. -/
theorem Device.initDone_writeBytes {d : Device} (hd : d.initDone = true) (start : Nat) (ds : List Byte)
    (bus : BusPhase) : Device.initDone ⟨d.regs.writeBytes start ds, bus⟩ = true := by
  simp only [Device.initDone, Bool.and_eq_true] at hd ⊢
  exact hd.imp (Memory.isSome_read_writeBytes start ds) (Memory.isSome_read_writeBytes start ds)

/-- A ready device stores a whole transaction (R57). -/
theorem Device.observe_txn_of_ready (addr : DevAddr) {d : Device} {r : Byte} {ds : List Byte}
    (hd : d.initDone = true) (hspace : r.toNat + ds.length ≤ 256) :
    (txn addr r ds).foldl (Device.observe addr) d = ⟨d.regs.writeBytes r.toNat ds, .idle⟩ := by
  rw [Device.observe_txn, Device.commit, if_pos ⟨hspace, .inr hd⟩]

/-- A transaction of one byte is stored also before INIT has completed (log 10). -/
theorem Device.observe_txn_singleton (addr : DevAddr) (d : Device) (r b : Byte) :
    (txn addr r [b]).foldl (Device.observe addr) d = ⟨d.regs.write r.toNat b, .idle⟩ := by
  rw [Device.observe_txn, Device.commit, if_pos ⟨r.isLt, .inl le_rfl⟩]
  rfl

/-- The registers of a ready device after consecutive writes (R57). -/
theorem Device.register_writeBytes {d : Device} (hbus : d.bus = .idle) (hd : d.initDone = true) (start : Nat)
    (ds : List Byte) (offset : Byte) :
    Device.register ⟨d.regs.writeBytes start ds, .idle⟩ offset =
      if start ≤ offset.toNat ∧ offset.toNat < start + ds.length then ds[offset.toNat - start]?
      else d.register offset := by
  rw [Device.register_of_ready rfl (Device.initDone_writeBytes hd start ds .idle), Memory.read_writeBytes,
    Device.register_of_ready hbus hd]

/-- Settles O46: the transaction is stored, and a read in its range is a data byte. -/
theorem transactionWritesConsecutiveRegisters : Obligations.TransactionWritesConsecutiveRegisters := by
  unfold Obligations.TransactionWritesConsecutiveRegisters
  intro d addr r ds hd hbus _ hspace
  exact ⟨_, Device.observe_txn_of_ready addr hd hspace, rfl, Device.initDone_writeBytes hd _ _ _,
    Device.register_writeBytes hbus hd _ _⟩

/-- A legal command offered to an idle block with a fair transport runs to its end: nothing is pending, and the
device has seen its tokens (R30, R57; log 3). -/
theorem runFrom_command {s : State} {i : Instr} (hw : s.params.wf = true) (hi : Instr.wf s.params i = true)
    (hp : s.pending = []) (ha : s.agenda = []) (hf : s.transportFair = true) (hh : s.held = some (encode i)) :
    ∃ t, runFrom (1 + (tokensOf s.params i).length) s = .next t ∧ t.pending = [] ∧
      t.device = (tokensOf s.params i).foldl (Device.observe s.params.devAddr) s.device := by
  obtain ⟨t, hrun, -, ht⟩ := runFrom_of_pending (tokensOf s.params i) (s.performed i) hw ha hf rfl _ le_rfl
  refine ⟨t, (runFrom_one_add _ (step_performs hw hi hp ha hh)).trans hrun, ?_, ?_⟩
  · rw [ht, List.drop_length]
  · rw [ht, List.take_length]
    rfl

/-- INIT leaves its two bytes in the mode registers, whatever the device held before (R130). -/
theorem Device.observe_initTokens (p : Params) (d : Device) :
    (initTokens p).foldl (Device.observe p.devAddr) d =
      ⟨(d.regs.write 0 p.mode1Init).write 1 p.mode2Init, .idle⟩ := by
  rw [initTokens, List.foldl_append, Device.observe_txn_singleton, Device.observe_txn_singleton]
  rfl

/-- Settles O47: the run ends with both mode registers written, and a register from 2 up is neither. -/
theorem initReadiesTheDevice : Obligations.InitReadiesTheDevice := by
  unfold Obligations.InitReadiesTheDevice
  intro s hw hp ha hf hh hbus
  obtain ⟨t, hrun, hpending, hdevice⟩ := runFrom_command hw (i := .init) rfl hp ha hf hh
  have hregs : t.device = ⟨(s.device.regs.write 0 s.params.mode1Init).write 1 s.params.mode2Init, .idle⟩ :=
    hdevice.trans (Device.observe_initTokens s.params s.device)
  have hmode1 : t.device.regs.read 0 = some s.params.mode1Init := by
    rw [hregs, Memory.read_write_other _ _ zero_ne_one, Memory.read_write_same]
  have hmode2 : t.device.regs.read 1 = some s.params.mode2Init := by
    rw [hregs, Memory.read_write_same]
  have hidle : t.device.bus = .idle := by rw [hregs]
  have hready : t.device.initDone = true := by
    simp [Device.initDone, mode1Reg, mode2Reg, hmode1, hmode2]
  have hread := Device.register_of_ready hidle hready
  refine ⟨t, hrun, hpending, hidle, hready, (hread 0).trans hmode1, (hread 1).trans hmode2, ?_⟩
  intro offset hoffset hbefore
  rw [hread, Device.register_of_ready hbus hbefore, hregs, Memory.read_write_other _ _ (by omega),
    Memory.read_write_other _ _ (by omega)]

/-- A SETGRP command sets one group of the instance, with one level a channel (R138, R139). -/
theorem tokensOf_setgrp {p : Params} {i : Instr} {group : GroupIndex} {levels : List Byte} (hw : p.wf = true)
    (hi : Instr.wf p i = true)
    (h : (∃ l, i = .setgrpGrey group l ∧ levels = List.replicate p.channels l) ∨
      (∃ r g b, i = .setgrpRgb group r g b ∧ levels = [r, g, b])) :
    tokensOf p i = groupTxn p group.toNat levels ∧ levels.length = p.channels ∧ group.toNat < p.groups := by
  obtain ⟨l, rfl, rfl⟩ | ⟨r, g, b, rfl, rfl⟩ := h
  · exact ⟨rfl, List.length_replicate, wf_setgrpGrey.1 hi⟩
  · obtain ⟨hshape, hgroup⟩ := wf_setgrpRgb.1 hi
    exact ⟨rfl, length_rgbLevels hw hshape r g b, hgroup⟩

/-- A ready device stores a group's payload from the group's start register on (R52, R118). -/
theorem Device.observe_groupTxn {p : Params} {d : Device} {g : Nat} {levels : List Byte} (hp : p.wf = true)
    (hg : g < p.groups) (hl : levels.length = p.channels) (hd : d.initDone = true) :
    (groupTxn p g levels).foldl (Device.observe p.devAddr) d =
      ⟨d.regs.writeBytes (0x06 + 4 * p.channels * g) (groupBytes p g levels), .idle⟩ := by
  have hroom := group_blocks_le hp hg
  have hbase := toNat_groupBase hp hg
  rw [groupTxn, Device.observe_txn_of_ready _ hd (by rw [hbase, length_groupBytes, hl]; omega), hbase]

/-- Settles O48: the device stores the group's payload; channel `k` has its four bytes at `4 * k`, and an offset
outside the payload is not written. -/
theorem setgrpReachesItsRegistersOnly : Obligations.SetgrpReachesItsRegistersOnly := by
  unfold Obligations.SetgrpReachesItsRegistersOnly
  intro s i group levels hw hi hcommand hp ha hf hh hbus hd
  obtain ⟨htokens, hlen, hgroup⟩ := tokensOf_setgrp hw hi hcommand
  obtain ⟨t, hrun, hpending, hdevice⟩ := runFrom_command hw hi hp ha hf hh
  rw [htokens, Device.observe_groupTxn hw hgroup hlen hd] at hdevice
  rw [htokens, length_groupTxn, hlen] at hrun
  have hroom := group_blocks_le hw hgroup
  have hpayload := length_groupBytes s.params group.toNat levels
  refine ⟨t, hrun, hpending, ?ready, ?channels, ?others⟩
  case ready =>
    rw [hdevice]
    exact Device.initDone_writeBytes hd _ _ _
  case channels =>
    intro k j l hl hj
    obtain ⟨hk, -⟩ := List.getElem?_eq_some_iff.1 hl
    have hoffset : (BitVec.ofNat 8 (0x06 + 4 * s.params.channels * group.toNat + 4 * k + j)).toNat =
        0x06 + 4 * s.params.channels * group.toNat + (4 * k + j) := by
      rw [BitVec.toNat_ofNat]
      omega
    rw [hdevice, Device.register_writeBytes hbus hd, if_pos (by omega), hoffset, Nat.add_sub_cancel_left,
      getElem?_groupBytes _ _ hl hj]
  case others =>
    intro offset houtside
    rw [Nat.mul_add_one] at houtside
    rw [hdevice, Device.register_writeBytes hbus hd, if_neg (by omega)]

end Sys2Proof.Machine
end

section
/-! Decoding and encoding are inverse (R74, R78, R80). -/

namespace Sys2Proof

/-- A word is given by its five fields (R70). -/
theorem eq_assembleFields_iff {w : Word} {op : BitVec 4} {grp : GroupIndex} {a b c : Byte} :
    w = assembleFields op grp a b c ↔
      opField w = op ∧ grpField w = grp ∧ aField w = a ∧ bField w = b ∧ cField w = c := by
  rw [← assembleFields_inj, assembleFields_fields]

/-- A command guarded by its unused fields is answered exactly if they are zero (R72). -/
theorem ite_command_eq_command {unusedZero : Prop} [Decidable unusedZero] {i j : Instr} {c : Cause} :
    (if unusedZero then Decoded.command i else .illegal c) = .command j ↔ unusedZero ∧ i = j := by
  split_ifs with h <;> simp [h]

/-- A word whose pattern is a command is the encoding of that command. -/
theorem eq_encode_of_decodePattern {w : Word} {i : Instr} (hd : decodePattern w = .command i) : w = encode i := by
  obtain h | h | h | h | h | h | h | h := opField_cases (opField w)
  · rw [decodePattern_of_reserved h] at hd
    cases hd
  · rw [decodePattern_of_op1 h, ite_command_eq_command] at hd
    obtain ⟨⟨hgrp, ha, hb, hc⟩, rfl⟩ := hd
    exact eq_assembleFields_iff.2 ⟨h, hgrp, ha, hb, hc⟩
  · rw [decodePattern_of_op2 h, ite_command_eq_command] at hd
    obtain ⟨⟨hgrp, hb, hc⟩, rfl⟩ := hd
    exact eq_assembleFields_iff.2 ⟨h, hgrp, rfl, hb, hc⟩
  · rw [decodePattern_of_op3 h, ite_command_eq_command] at hd
    obtain ⟨hgrp, rfl⟩ := hd
    exact eq_assembleFields_iff.2 ⟨h, hgrp, rfl, rfl, rfl⟩
  · rw [decodePattern_of_op4 h, ite_command_eq_command] at hd
    obtain ⟨⟨hb, hc⟩, rfl⟩ := hd
    exact eq_assembleFields_iff.2 ⟨h, rfl, rfl, hb, hc⟩
  · rw [decodePattern_of_op5 h] at hd
    cases hd
    exact eq_assembleFields_iff.2 ⟨h, rfl, rfl, rfl, rfl⟩
  · rw [decodePattern_of_op6 h, ite_command_eq_command] at hd
    obtain ⟨⟨hgrp, hb, hc⟩, rfl⟩ := hd
    exact eq_assembleFields_iff.2 ⟨h, hgrp, rfl, hb, hc⟩
  · rw [decodePattern_of_op7 h, ite_command_eq_command] at hd
    obtain ⟨hgrp, rfl⟩ := hd
    exact eq_assembleFields_iff.2 ⟨h, hgrp, rfl, rfl, rfl⟩

/-- The pattern of a word is a command exactly if the word is its encoding (R74, R78). -/
theorem decodePattern_eq_command {w : Word} {i : Instr} : decodePattern w = .command i ↔ w = encode i :=
  ⟨eq_encode_of_decodePattern, fun h => h ▸ decodePattern_encode i⟩

/-- Settles O2: the pattern names the encoding, and the instance's causes are those of legality. -/
theorem decodeAnswersExactlyEncodings : Obligations.DecodeAnswersExactlyEncodings := by
  unfold Obligations.DecodeAnswersExactlyEncodings
  intro p w i
  rw [decode_eq_command, decodePattern_eq_command, illegality_eq_none, and_comm]

/-- Settles O4: each written word is the encoding of a command the default instance takes. -/
theorem writtenWordsDecode : Obligations.WrittenWordsDecode := by
  have key {w : Word} {i : Instr} (hi : Instr.wf Params.default i = true) (hw : w = encode i) :=
    (decodeAnswersExactlyEncodings Params.default w i).2 ⟨hi, hw⟩
  unfold Obligations.WrittenWordsDecode
  exact ⟨key rfl rfl, key rfl rfl, key rfl rfl, key rfl rfl, key rfl rfl, key rfl rfl, key rfl rfl⟩

/-- Settles O5: an encoding has its command's pattern, so the instance's legality alone decides. -/
theorem parametersDecideLegality : Obligations.ParametersDecideLegality := by
  unfold Obligations.ParametersDecideLegality
  refine ⟨fun p n r g b hW => ⟨?setallShape, ?setgrpShape⟩, fun p n l hg => ?greyGroup,
    fun p n r g b hW hg => ?rgbGroup, fun p r g b => ?correctRgb⟩
  case setallShape => exact decode_of_illegality (decodePattern_encode _) (illegality_setallRgb_of_shape r g b hW)
  case setgrpShape => exact decode_of_illegality (decodePattern_encode _) (illegality_setgrpRgb_of_shape n r g b hW)
  case greyGroup => exact decode_of_illegality (decodePattern_encode _) (illegality_setgrpGrey_of_group l hg)
  case rgbGroup => exact decode_of_illegality (decodePattern_encode _) (illegality_setgrpRgb_of_group r g b hW hg)
  case correctRgb => exact Machine.decode_encode rfl

end Sys2Proof
end

section
/-! The rows of the opcode table as masks and matches (R73). -/

namespace Sys2Proof

/-- The all-ones mask keeps a 4-bit field. -/
theorem and_mask_nibble (x : BitVec 4) : x &&& 0xF = x := BitVec.and_allOnes

/-- The all-ones mask keeps an 8-bit field. -/
theorem and_mask_byte (x : Byte) : x &&& 0xFF = x := BitVec.and_allOnes

/-- The zero mask clears a field. -/
theorem and_mask_clear {n : Nat} (x : BitVec n) : x &&& 0 = 0 := BitVec.and_zero

/-- A row with no operand fixes every bit. -/
theorem eq_fixedRow_iff (w : Word) (op : BitVec 4) :
    w = assembleFields op 0 0 0 0 ↔ w &&& 0xFFFFFFFF#32 = assembleFields op 0 0 0 0 := by
  rw [show 0xFFFFFFFF#32 = BitVec.allOnes 32 from rfl, BitVec.and_allOnes]

/-- A row with one level leaves field A free. -/
theorem eq_levelRow_iff (w : Word) (op : BitVec 4) (level : Byte) :
    w = assembleFields op 0 level 0 0 ↔
      w &&& 0xFF00FFFF#32 = assembleFields op 0 0 0 0 ∧ level = aField w := by
  rw [eq_assembleFields_iff, show 0xFF00FFFF#32 = assembleFields 0xF 0xF 0 0xFF 0xFF from rfl, masked_eq_iff]
  simp only [and_mask_nibble, and_mask_byte, and_mask_clear]
  tauto

/-- A row with three levels leaves fields A, B and C free. -/
theorem eq_levelsRow_iff (w : Word) (op : BitVec 4) (red green blue : Byte) :
    w = assembleFields op 0 red green blue ↔
      w &&& 0xFF000000#32 = assembleFields op 0 0 0 0 ∧ red = aField w ∧ green = bField w ∧ blue = cField w := by
  rw [eq_assembleFields_iff, show 0xFF000000#32 = assembleFields 0xF 0xF 0 0 0 from rfl, masked_eq_iff]
  simp only [and_mask_nibble, and_mask_clear]
  tauto

/-- A row with a group and one level leaves fields GRP and A free. -/
theorem eq_groupLevelRow_iff (w : Word) (op : BitVec 4) (group : GroupIndex) (level : Byte) :
    w = assembleFields op group level 0 0 ↔
      w &&& 0xF000FFFF#32 = assembleFields op 0 0 0 0 ∧ group = grpField w ∧ level = aField w := by
  rw [eq_assembleFields_iff, show 0xF000FFFF#32 = assembleFields 0xF 0 0 0xFF 0xFF from rfl, masked_eq_iff]
  simp only [and_mask_nibble, and_mask_byte, and_mask_clear]
  tauto

/-- A row with a group and three levels fixes the opcode alone. -/
theorem eq_groupLevelsRow_iff (w : Word) (op : BitVec 4) (group : GroupIndex) (red green blue : Byte) :
    w = assembleFields op group red green blue ↔
      w &&& 0xF0000000#32 = assembleFields op 0 0 0 0 ∧
        group = grpField w ∧ red = aField w ∧ green = bField w ∧ blue = cField w := by
  rw [eq_assembleFields_iff, show 0xF0000000#32 = assembleFields 0xF 0 0 0 0 from rfl, masked_eq_iff]
  simp only [and_mask_nibble, and_mask_clear]
  tauto

/-- A command guarded by its unused fields is never rejected as reserved (R72). -/
theorem ite_command_ne_reserved {unusedZero : Prop} [Decidable unusedZero] {i : Instr} :
    (if unusedZero then Decoded.command i else .illegal .sbzNonzero) ≠ .illegal .reservedOpcode := by
  split_ifs <;> simp

/-- The pattern of a word is rejected as reserved exactly for the opcodes 0 and 8 to 15 (R75). -/
theorem decodePattern_eq_reserved {w : Word} :
    decodePattern w = .illegal .reservedOpcode ↔ opField w = 0#4 ∨ 8 ≤ (opField w).toNat := by
  refine ⟨fun hd => ?_, decodePattern_of_reserved⟩
  obtain h | h | h | h | h | h | h | h := opField_cases (opField w)
  · exact h
  · exact absurd (decodePattern_of_op1 h ▸ hd) ite_command_ne_reserved
  · exact absurd (decodePattern_of_op2 h ▸ hd) ite_command_ne_reserved
  · exact absurd (decodePattern_of_op3 h ▸ hd) ite_command_ne_reserved
  · exact absurd (decodePattern_of_op4 h ▸ hd) ite_command_ne_reserved
  · rw [decodePattern_of_op5 h] at hd
    cases hd
  · exact absurd (decodePattern_of_op6 h ▸ hd) ite_command_ne_reserved
  · exact absurd (decodePattern_of_op7 h ▸ hd) ite_command_ne_reserved

/-- The reserved opcodes as masks of the word: opcode 0, or bit 31 set. -/
theorem reserved_iff_masked (w : Word) :
    opField w = 0#4 ∨ 8 ≤ (opField w).toNat ↔
      w &&& 0xF0000000#32 = 0#32 ∨ w &&& 0x80000000#32 = 0x80000000#32 := by
  have top_bit : ∀ x : BitVec 4, x &&& 8 = 8 ↔ 8 ≤ x.toNat := by decide
  rw [show 0xF0000000#32 = assembleFields 0xF 0 0 0 0 from rfl, show 0#32 = assembleFields 0 0 0 0 0 from rfl,
    show 0x80000000#32 = assembleFields 8 0 0 0 0 from rfl, masked_eq_iff, masked_eq_iff]
  simp only [and_mask_nibble, top_bit, and_mask_clear, and_true]
  rfl

/-- Settles O3: a command's pattern is its encoding, whose row fixes all but the operand fields. -/
theorem rowsMatchUnderMask : Obligations.RowsMatchUnderMask := by
  unfold Obligations.RowsMatchUnderMask
  intro w
  simp only [decodePattern_eq_command, decodePattern_eq_reserved]
  exact ⟨eq_fixedRow_iff w 1, eq_levelRow_iff w 2, eq_levelsRow_iff w 3, eq_groupLevelRow_iff w 4,
    eq_groupLevelsRow_iff w 5, eq_levelRow_iff w 6, eq_levelsRow_iff w 7, reserved_iff_masked w⟩

end Sys2Proof
end

section
/-! Decoding as the ordered list of checks (R80): what is left of the list under each opcode. -/

namespace Sys2Proof

/-- A command whose pattern is good is rejected with the instance's cause, if it has one (R76, R80). -/
theorem decode_of_pattern {p : Params} {w : Word} {i : Instr} (hd : decodePattern w = .command i) :
    decode p w = (illegality p i).elim (.command i) .illegal := by
  cases h : illegality p i with
  | none => exact decode_eq_command.2 ⟨hd, h⟩
  | some c => exact decode_of_illegality hd h

/-- An opcode with unused fields checks them before the instance's causes (R72, R80). -/
theorem decode_of_guarded {p : Params} {w : Word} {i : Instr} {unusedZero : Prop} [Decidable unusedZero]
    (hd : decodePattern w = if unusedZero then .command i else .illegal .sbzNonzero) :
    decode p w =
      if unusedZero then (illegality p i).elim (.command i) .illegal else .illegal .sbzNonzero := by
  split_ifs with h
  · exact decode_of_pattern (hd.trans (if_pos h))
  · exact decode_of_pattern_illegal (hd.trans (if_neg h))

/-- Cause 3 comes first where it applies (R163). -/
theorem elim_shapeCause_or (p : Params) (later : Option Cause) (d : Decoded) :
    ((shapeCause p).or later).elim d .illegal =
      if p.channels = 1 then .illegal .shapeMismatch else later.elim d .illegal := by
  unfold shapeCause
  split_ifs <;> rfl

theorem elim_shapeCause (p : Params) (d : Decoded) :
    (shapeCause p).elim d .illegal = if p.channels = 1 then .illegal .shapeMismatch else d := by
  simpa using elim_shapeCause_or p none d

theorem elim_groupCause (p : Params) (group : GroupIndex) (d : Decoded) :
    (groupCause p group).elim d .illegal = if p.groups ≤ group.toNat then .illegal .groupRange else d := by
  unfold groupCause
  split_ifs <;> rfl

/-- Settles O1: under each opcode the list keeps the checks of its row, in the order in which the pattern's unused
fields and then the instance's causes are checked. -/
theorem decodeIsTheCheckList : Obligations.DecodeIsTheCheckList := by
  unfold Obligations.DecodeIsTheCheckList
  intro p w
  simp only [← opField.eq_def, ← grpField.eq_def, ← aField.eq_def, ← bField.eq_def, ← cField.eq_def]
  obtain hop | hop | hop | hop | hop | hop | hop | hop := opField_cases (opField w)
  · rw [decode_of_pattern_illegal (decodePattern_of_reserved hop), if_pos]
    exact hop.imp_left (congrArg BitVec.toNat)
  · rw [decode_of_guarded (decodePattern_of_op1 hop), hop]
    grind [illegality]
  · rw [decode_of_guarded (decodePattern_of_op2 hop), hop]
    grind [illegality]
  · rw [decode_of_guarded (decodePattern_of_op3 hop), hop]
    grind [illegality, elim_shapeCause]
  · rw [decode_of_guarded (decodePattern_of_op4 hop), hop]
    grind [illegality, elim_groupCause]
  · rw [decode_of_pattern (decodePattern_of_op5 hop), hop]
    grind [illegality, elim_shapeCause_or, elim_groupCause]
  · rw [decode_of_guarded (decodePattern_of_op6 hop), hop]
    grind [illegality]
  · rw [decode_of_guarded (decodePattern_of_op7 hop), hop]
    grind [illegality]

end Sys2Proof
end

section
/-! The assembler (R77, R78): which operands each mnemonic takes. -/

namespace Sys2Proof.Machine

/-- A level operand is a byte's number, and every byte has one (R77). -/
theorem levelOperand_eq_some {n : Nat} {level : Byte} : levelOperand n = some level ↔ n = level.toNat := by
  unfold levelOperand
  split_ifs with h
  · rw [Option.some_inj, ← BitVec.toNat_inj, BitVec.toNat_ofNat, Nat.mod_eq_of_lt h]
  · exact iff_of_false nofun fun hn => h (hn ▸ level.isLt)

/-- A group operand is a group index's number, and every index has one, also those from `N` up (R77). -/
theorem groupOperand_eq_some {n : Nat} {group : GroupIndex} : groupOperand n = some group ↔ n = group.toNat := by
  unfold groupOperand
  split_ifs with h
  · rw [Option.some_inj, ← BitVec.toNat_inj, BitVec.toNat_ofNat, Nat.mod_eq_of_lt h]
  · exact iff_of_false nofun fun hn => h (hn ▸ group.isLt)

theorem oneLevel_eq_some {f : Byte → Instr} {ops : List Nat} {i : Instr} :
    oneLevel f ops = some i ↔ ∃ level : Byte, ops = [level.toNat] ∧ f level = i := by
  unfold oneLevel
  split
  · simp [levelOperand_eq_some]
  · rename_i hother
    refine iff_of_false nofun ?_
    rintro ⟨level, rfl, -⟩
    exact hother _ rfl

theorem threeLevels_eq_some {f : Byte → Byte → Byte → Instr} {ops : List Nat} {i : Instr} :
    threeLevels f ops = some i ↔
      ∃ red green blue : Byte, ops = [red.toNat, green.toNat, blue.toNat] ∧ f red green blue = i := by
  constructor
  · intro h
    unfold threeLevels at h
    split at h
    · split at h
      · rename_i hr hg hb
        exact ⟨_, _, _, by rw [levelOperand_eq_some.1 hr, levelOperand_eq_some.1 hg, levelOperand_eq_some.1 hb],
          Option.some_inj.1 h⟩
      · cases h
    · cases h
  · rintro ⟨red, green, blue, rfl, rfl⟩
    simp only [threeLevels, levelOperand_eq_some.2 rfl]

theorem groupThen_eq_some {f : GroupIndex → List Nat → Option Instr} {ops : List Nat} {i : Instr} :
    groupThen f ops = some i ↔
      ∃ (group : GroupIndex) (rest : List Nat), ops = group.toNat :: rest ∧ f group rest = some i := by
  constructor
  · intro h
    unfold groupThen at h
    split at h
    · split at h
      · rename_i hgroup
        exact ⟨_, _, by rw [groupOperand_eq_some.1 hgroup], h⟩
      · cases h
    · cases h
  · rintro ⟨group, rest, rfl, hf⟩
    simp only [groupThen, groupOperand_eq_some.2 rfl, hf]

/-- A mnemonic with operands assembles to the command that has them, and to no other (R77). -/
theorem assembleOperands_eq_some {mnemonic : List Char} {ops : List Nat} {i : Instr} :
    assembleOperands mnemonic ops = some i ↔ mnemonic = mnemonicOf i ∧ ops = operandsOf i := by
  constructor
  · intro h
    unfold assembleOperands at h
    split_ifs at h with hm hops hm hm hm hm hm hm
    · cases h
      exact ⟨hm, hops⟩
    · obtain ⟨level, rfl, rfl⟩ := oneLevel_eq_some.1 h
      exact ⟨hm, rfl⟩
    · obtain ⟨red, green, blue, rfl, rfl⟩ := threeLevels_eq_some.1 h
      exact ⟨hm, rfl⟩
    · obtain ⟨group, rest, rfl, hrest⟩ := groupThen_eq_some.1 h
      obtain ⟨level, rfl, rfl⟩ := oneLevel_eq_some.1 hrest
      exact ⟨hm, rfl⟩
    · obtain ⟨group, rest, rfl, hrest⟩ := groupThen_eq_some.1 h
      obtain ⟨red, green, blue, rfl, rfl⟩ := threeLevels_eq_some.1 hrest
      exact ⟨hm, rfl⟩
    · obtain ⟨level, rfl, rfl⟩ := oneLevel_eq_some.1 h
      exact ⟨hm, rfl⟩
    · obtain ⟨red, green, blue, rfl, rfl⟩ := threeLevels_eq_some.1 h
      exact ⟨hm, rfl⟩
  · rintro ⟨rfl, rfl⟩
    cases i with
    | init => rfl
    | setallGrey level => exact oneLevel_eq_some.2 ⟨level, rfl, rfl⟩
    | setallRgb red green blue => exact threeLevels_eq_some.2 ⟨red, green, blue, rfl, rfl⟩
    | setgrpGrey group level =>
      exact groupThen_eq_some.2 ⟨group, _, rfl, oneLevel_eq_some.2 ⟨level, rfl, rfl⟩⟩
    | setgrpRgb group red green blue =>
      exact groupThen_eq_some.2 ⟨group, _, rfl, threeLevels_eq_some.2 ⟨red, green, blue, rfl, rfl⟩⟩
    | correct level => exact oneLevel_eq_some.2 ⟨level, rfl, rfl⟩
    | correctRgb red green blue => exact threeLevels_eq_some.2 ⟨red, green, blue, rfl, rfl⟩

/-- Settles O6: a mnemonic and operands that assemble are those of the command; the line is one computation. -/
theorem assemblerGivesTheWord : Obligations.AssemblerGivesTheWord := by
  unfold Obligations.AssemblerGivesTheWord
  refine ⟨fun i => ?word, fun i j ops h => ?refusal, by decide⟩
  case word => rw [assembleOperands_eq_some.2 ⟨rfl, rfl⟩, Option.map_some]
  case refusal =>
    obtain ⟨hmnemonic, hops⟩ := assembleOperands_eq_some.1 h
    exact ⟨hmnemonic.symm, hops⟩

end Sys2Proof.Machine
end

section
/-! The correction ROM (R90 to R94): the derivation in whole numbers, its agreement with the table, and the
properties of the contents read off the derivation. -/

namespace Sys2Proof.Machine

/-- `RoundHalfUp(n / d)` in whole numbers. -/
def roundHalfUp (n d : Nat) : Nat := (2 * n + d) / (2 * d)

/-- The tick count R90 derives for index `i`, its two branches brought to one fraction each. -/
def derivedCount (i : Nat) : Nat :=
  if 100 * i < 8 * 255 then roundHalfUp (4095 * (1000 * i)) (255 * 9033)
  else roundHalfUp (4095 * (5 * i + 204) ^ 3) (1479 ^ 3)

theorem floor_div_add_half (n : Nat) {d : Nat} (hd : d ≠ 0) : ⌊(n : ℚ) / d + 1 / 2⌋ = (roundHalfUp n d : ℤ) := by
  have hfrac : (n : ℚ) / d + 1 / 2 = ((2 * n + d : ℕ) : ℚ) / ((2 * d : ℕ) : ℚ) := by
    have hd' : (d : ℚ) ≠ 0 := Nat.cast_ne_zero.2 hd
    push_cast
    field_simp
  rw [hfrac, Rat.floor_natCast_div_natCast, roundHalfUp, Int.natCast_ediv]

/-- The test of R90's branch in whole numbers. -/
theorem lightness_lt_eight_iff (i : Nat) : 100 * (i : ℚ) / 255 < 8 ↔ 100 * i < 8 * 255 := by
  rw [div_lt_iff₀ (by norm_num)]
  exact_mod_cast Iff.rfl

/-- The derivation of R90 in rationals is the one in whole numbers: each branch is one fraction, rounded. -/
theorem floor_lightness (i : Nat) :
    ⌊4095 * (if 100 * (i : ℚ) / 255 < 8 then 100 * (i : ℚ) / 255 / (9033 / 10)
      else ((100 * (i : ℚ) / 255 + 16) / 116) ^ 3) + 1 / 2⌋ = (derivedCount i : ℤ) := by
  simp only [derivedCount, lightness_lt_eight_iff]
  split_ifs
  all_goals
    rw [← floor_div_add_half _ (by norm_num)]
    congr 2
    push_cast
    ring

/-- The table of R91 is the derivation, entry for entry. -/
theorem toNat_rom : ∀ i : Byte, (rom i).toNat = derivedCount i.toNat := by decide

theorem toNat_rom_ofNat {i : Nat} (hi : i < 256) : (rom (BitVec.ofNat 8 i)).toNat = derivedCount i := by
  rw [toNat_rom, BitVec.toNat_ofNat, Nat.mod_eq_of_lt hi]

/-- Settles O7: the table is the derivation in whole numbers, which is the one in rationals. -/
theorem romIsTheLightnessDerivation : Obligations.RomIsTheLightnessDerivation := by
  unfold Obligations.RomIsTheLightnessDerivation
  intro i
  rw [toNat_rom]
  exact (floor_lightness i.toNat).symm

theorem derivedCount_step {i : Nat} (hi : i < 255) :
    derivedCount i + 1 ≤ derivedCount (i + 1) ∧ derivedCount (i + 1) ≤ derivedCount i + 42 := by
  have key : ∀ b : Byte, b.toNat < 255 → derivedCount b.toNat + 1 ≤ derivedCount (b.toNat + 1) ∧
      derivedCount (b.toNat + 1) ≤ derivedCount b.toNat + 42 := by decide
  have hb : (BitVec.ofNat 8 i).toNat = i := Nat.mod_eq_of_lt (by omega)
  simpa only [hb] using key (BitVec.ofNat 8 i) (by omega)

theorem derivedCount_lt {i j : Nat} (hij : i < j) (hj : j ≤ 255) : derivedCount i < derivedCount j := by
  induction j, hij using Nat.le_induction with
  | base => exact (derivedCount_step hj).1
  | succ j _ ih => exact (ih (by omega)).trans (derivedCount_step hj).1

/-- Every entry is at or below the straight line (R93). -/
theorem derivedCount_le_chord : ∀ i : Byte, derivedCount i.toNat ≤ roundHalfUp (4095 * i.toNat) 255 := by decide

/-- The step from index `i` is larger than the next (R93: the rounded table is not discretely convex). -/
def stepShrinks (count : Nat → Nat) (i : Nat) : Bool :=
  decide (count (i + 2) - count (i + 1) < count (i + 1) - count i)

theorem countP_stepShrinks_derivedCount : (List.range 254).countP (stepShrinks derivedCount) = 56 := by
  rw [show 254 = 127 + 127 from rfl, List.range_add, List.countP_append]
  decide

theorem rom_zero : rom 0 = 0 := by decide

theorem rom_last : rom 255 = 4095 := by decide

/-- Settles O8: each property holds of the derivation, which the table equals. -/
theorem romProperties : Obligations.RomProperties := by
  unfold Obligations.RomProperties
  refine ⟨rom_zero, rom_last, ?strict, ?steps, ⟨2, by decide, by decide⟩, ⟨253, by decide, by decide⟩, ?chord,
    ?shrinks, fun i => ⟨by omega, by omega⟩⟩
  case strict =>
    intro i j hij
    rw [toNat_rom, toNat_rom]
    exact derivedCount_lt hij (by omega)
  case steps =>
    intro i hi
    rw [toNat_rom_ofNat (by omega), toNat_rom_ofNat (by omega)]
    exact derivedCount_step (by omega)
  case chord =>
    intro i
    rw [toNat_rom, Nat.mul_assoc]
    exact derivedCount_le_chord i
  case shrinks =>
    rw [← countP_stepShrinks_derivedCount]
    refine List.countP_congr fun i hi => ?_
    have hi' : i < 254 := List.mem_range.1 hi
    rw [toNat_rom_ofNat (by omega), toNat_rom_ofNat (by omega), toNat_rom_ofNat (by omega), stepShrinks]

end Sys2Proof.Machine
end

section
/-! The two lookup commands (R95, R96): completion, encoding, rejection, example. -/

namespace Sys2Proof.Machine

/-- A lookup performed by an idle block writes RESULT and takes the offer; nothing else changes (R30, R95, R96). -/
theorem exec_of_lookup {i : Instr} {s : State} {r : LookupResult} (hw : s.params.wf = true) (hp : s.pending = [])
    (hi : Instr.wf s.params i = true) (htokens : tokensOf s.params i = []) (hlookup : lookupOf i = some r) :
    exec i s = .next { s with held := none, result := some r } := by
  rw [exec_of_wf hw hp hi, State.performed, htokens, hlookup, Option.some_or, ← hp]

/-- Settles O14: a lookup that every legal instance takes. -/
theorem correctWritesResult : Obligations.CorrectWritesResult := by
  unfold Obligations.CorrectWritesResult
  refine ⟨fun s level hw hp => exec_of_lookup hw hp rfl rfl rfl,
    fun p level => decode_encode (i := .correct level) rfl, ?rejects, rom_zero, rom_last, by decide, by decide,
    decode_encode (i := .correct 128) rfl, by decide⟩
  case rejects =>
    intro s w _ hp hh hop hunused
    apply acceptOffer_of_sbz hp hh
    rw [decodePattern_of_op6 (opField_of_masked hop), if_neg]
    rintro ⟨hgrp, hb, hc⟩
    exact hunused (masked_eq_zero (grp := 0xF) (a := 0) (b := 0xFF) (c := 0xFF) (by simp [hgrp]) BitVec.and_zero
      (by simp [hb]) (by simp [hc]))

/-- Settles O15: the three lanes are independent, and every legal instance takes the command. -/
theorem correctRgbWritesLanes : Obligations.CorrectRgbWritesLanes := by
  unfold Obligations.CorrectRgbWritesLanes
  refine ⟨fun s red green blue hw hp => exec_of_lookup hw hp rfl rfl rfl,
    fun p red green blue => decode_encode (i := .correctRgb red green blue) rfl, ?rejects,
    decode_encode (i := .correctRgb 128 0 255) rfl, by decide⟩
  case rejects =>
    intro s w _ hp hh hop hunused
    apply acceptOffer_of_sbz hp hh
    rw [decodePattern_of_op7 (opField_of_masked hop), if_neg]
    intro hgrp
    exact hunused (masked_eq_zero (grp := 0xF) (a := 0) (b := 0) (c := 0) (by simp [hgrp]) BitVec.and_zero
      BitVec.and_zero BitVec.and_zero)

end Sys2Proof.Machine
end

section
/-! The PWM pair (R110 to R116): the pair of a phase and a count, the payload of a group, the phase tables of the
legal instances. -/

namespace Sys2Proof

/-- The rule of R111 in the library's form: each tick is below the next. -/
theorem risingTicks_iff_isChain {ts : List Tick} : risingTicks ts = true ↔ ts.IsChain (· < ·) := by
  induction ts using risingTicks.induct with
  | case1 a b rest ih =>
    rw [risingTicks, Bool.and_eq_true, decide_eq_true_eq, ih, List.isChain_cons_cons]
  | case2 ts hshort =>
    match ts, hshort with
    | [], _ => simp [risingTicks]
    | [_], _ => simp [risingTicks]
    | a :: b :: rest, hshort => exact (hshort a b rest rfl).elim

/-- The rule of R111 by index. -/
theorem risingTicks_iff_getD {ts : List Tick} :
    risingTicks ts = true ↔ ∀ g, g + 1 < ts.length → (ts.getD g 0).toNat < (ts.getD (g + 1) 0).toNat := by
  rw [risingTicks_iff_isChain, List.isChain_iff_getElem]
  refine forall₂_congr fun g hg => ?_
  rw [List.getD_eq_getElem _ _ (Nat.lt_of_succ_lt hg), List.getD_eq_getElem _ _ hg, BitVec.lt_def]

@[simp] theorem length_defaultPhase (n : Nat) : (defaultPhase n).length = n := by
  simp [defaultPhase]

/-- An entry of the default table is below a period, so its 12 bits hold it (R112). -/
theorem toNat_defaultPhase {n g : Nat} (hg : g < n) : ((defaultPhase n).getD g 0).toNat = 4096 * g / n := by
  have hentry : (defaultPhase n).getD g 0 = BitVec.ofNat 12 (4096 * g / n) := by
    rw [List.getD_eq_getElem _ _ (by simpa using hg)]
    simp [defaultPhase]
  have hperiod : 4096 * g / n < 4096 := Nat.div_lt_of_lt_mul (by omega)
  rw [hentry, BitVec.toNat_ofNat, Nat.mod_eq_of_lt hperiod]

/-- Up to 4096 groups are at least one tick apart (R111, R112). -/
theorem risingTicks_defaultPhase {n : Nat} (hn : n ≤ 4096) : risingTicks (defaultPhase n) = true := by
  refine risingTicks_iff_getD.2 fun g hg => ?_
  rw [length_defaultPhase] at hg
  rw [toNat_defaultPhase (Nat.lt_of_succ_lt hg), toNat_defaultPhase hg]
  calc 4096 * g / n < 4096 * g / n + 1 := Nat.lt_succ_self _
    _ = (4096 * g + n) / n := (Nat.add_div_right _ (by omega)).symm
    _ ≤ 4096 * (g + 1) / n := Nat.div_le_div_right (by omega)

end Sys2Proof

namespace Sys2Proof.Machine

/-- The off edge as R113 computes it. -/
theorem toNat_pwmPair_off (phase count : Tick) :
    (pwmPair phase count).off.toNat = (phase.toNat + count.toNat) % 4096 := by
  rw [pwmPair_off, BitVec.toNat_add]

/-- Settles O9: the off edge is a sum of two tick counts, which passes the end of the period once at most. -/
theorem pairArithmetic : Obligations.PairArithmetic := by
  unfold Obligations.PairArithmetic
  refine ⟨fun phase count => ⟨rfl, toNat_pwmPair_off phase count, ?wrapsOnce, ?difference⟩, fun phase => ?corners,
    by decide, by decide, by decide⟩
  case wrapsOnce =>
    rw [toNat_pwmPair_off]
    have hphase := phase.isLt
    have hcount := count.isLt
    split <;> omega
  case difference =>
    have hon : (pwmPair phase count).on = phase := rfl
    rw [pwmPair_off, hon, BitVec.add_comm, BitVec.add_sub_cancel]
  case corners => simpa only [rom_zero, rom_last] using pwmPair_off_corners phase

/-- Settles O11: a channel's bytes stand in its own four places, and they are those of the plain arithmetic. -/
theorem groupPayload : Obligations.GroupPayload := by
  unfold Obligations.GroupPayload
  intro p g levels
  refine ⟨length_groupBytes p g levels, fun k l hl => ?_⟩
  rw [take_drop_groupBytes p g hl, channelBytes_eq_channelByArithmetic]

/-- Settles O13: an entry of the default table does not wrap, and its entries rise for up to 4096 groups. -/
theorem defaultPhasesLegal : Obligations.DefaultPhasesLegal := by
  unfold Obligations.DefaultPhasesLegal
  refine ⟨fun n g hg _ => toNat_defaultPhase hg, defaultPhase_five, ?sixteen, ?legal⟩
  case sixteen =>
    intro g hg
    rw [toNat_defaultPhase hg]
    omega
  case legal =>
    intro n w hn hw hnw
    have hn16 : n ≤ 16 := (Nat.le_mul_of_pos_right n (by omega)).trans hnw
    exact Params.wf_iff.2 ⟨hn, hw, hnw, length_defaultPhase n, risingTicks_defaultPhase (by omega)⟩

/-- No step is taken in an ill-formed instance (R6, R111). -/
theorem step_of_ill_formed {s : State} (hw : s.params.wf = false) : step s = .refused .illFormedInstance := by
  simp [step, hw]

/-- Settles O38: the steps and the commands test the instance first, and the test is R6's list with R111. -/
theorem illFormedInstanceRefused : Obligations.IllFormedInstanceRefused := by
  unfold Obligations.IllFormedInstanceRefused
  refine ⟨fun s i hw => ⟨step_of_ill_formed hw, exec_of_ill_formed i hw⟩, fun p => ?conditions⟩
  case conditions =>
    rw [Params.wf_iff, risingTicks_iff_getD]
    refine and_congr_right fun _ => and_congr_right fun _ => and_congr_right fun _ => and_congr_right fun hlen => ?_
    rw [hlen]

end Sys2Proof.Machine
end

section
/-! The counts of R140: an END closes each transaction, and a group takes four bytes a channel beside BEGIN, start
register and END. -/

namespace Sys2Proof.Machine

/-- A transaction holds one END (R10). -/
theorem count_endTxn_txn (a : DevAddr) (r : Byte) (ds : List Byte) : (txn a r ds).count .endTxn = 1 := by
  have hdata : (ds.map Token.byte).count .endTxn = 0 := List.count_eq_zero.2 (by simp)
  simp [txn, hdata]

/-- A command has as many ENDs as transactions. -/
theorem count_endTxn_tokensOf (p : Params) (i : Instr) : (tokensOf p i).count .endTxn = (txnParts p i).length := by
  rw [tokensOf_eq_flatMap_txn, List.count_flatMap]
  simp [Function.comp_def, count_endTxn_txn]

/-- Every group takes the same count of tokens (R140). -/
theorem length_allGroupsTxns (p : Params) (levels : List Byte) :
    (allGroupsTxns p levels).length = p.groups * (4 * levels.length + 3) := by
  simp [allGroupsTxns, length_groupTxn]

/-- Settles O22: the transactions are `txnParts`; the tokens of a group depend on the count of its levels alone. -/
theorem tokenCounts : Obligations.TokenCounts := by
  unfold Obligations.TokenCounts
  refine ⟨fun p i _ _ => ⟨?tokens, ?transactions⟩, fun l r g b => ⟨?grey, ?rgb⟩⟩
  case tokens =>
    cases i with
    | init => rfl
    | setallGrey l => simp only [tokensOf, length_allGroupsTxns, length_greyLevels]
    | setallRgb r g b => exact (length_allGroupsTxns p (rgbLevels r g b)).trans (Nat.mul_comm _ _)
    | setgrpGrey n l => simp only [tokensOf, length_groupTxn, length_greyLevels]
    | setgrpRgb n r g b => exact length_groupTxn p n.toNat (rgbLevels r g b)
    | correct l => rfl
    | correctRgb r g b => rfl
  case transactions =>
    rw [count_endTxn_tokensOf]
    cases i <;> simp [txnParts]
  case grey => exact length_allGroupsTxns Params.default (greyLevels Params.default l)
  case rgb => exact length_allGroupsTxns Params.default (rgbLevels r g b)

end Sys2Proof.Machine
end

section
/-! Commands ignore history (R58, R133, R134). -/

namespace Sys2Proof.Machine

/-- A command the instance takes and an idle block completes is performed: it is neither held nor rejected. -/
theorem exec_next_of_idle {i : Instr} {s t : State} (hp : s.pending = []) (hi : Instr.wf s.params i = true)
    (h : exec i s = .next t) : t = s.performed i := by
  obtain ⟨hw, -⟩ := exec_next h
  rw [exec_of_wf hw hp hi] at h
  cases h
  rfl

/-- What a lookup leaves in RESULT is its own answer, whatever was there (R26). -/
theorem State.performed_result_of_lookup {i : Instr} {r : LookupResult} (s : State) (hr : lookupOf i = some r) :
    (s.performed i).result = some r := by
  rw [State.performed_result, hr, Option.some_or]

/-- Settles O24: both states perform the command, whose tokens and lookup read the parameters alone. -/
theorem commandsIgnoreHistory : Obligations.CommandsIgnoreHistory := by
  unfold Obligations.CommandsIgnoreHistory
  intro i s t s' t' hparams hs ht hi hs' ht'
  obtain rfl := exec_next_of_idle hs hi hs'
  obtain rfl := exec_next_of_idle ht (hparams ▸ hi) ht'
  refine ⟨?pending, fun hlookup => ?result⟩
  case pending => rw [State.performed_pending, State.performed_pending, hparams]
  case result =>
    obtain ⟨r, hr⟩ := Option.ne_none_iff_exists'.1 hlookup
    rw [State.performed_result_of_lookup s hr, State.performed_result_of_lookup t hr]

end Sys2Proof.Machine
end

section
/-! The exception IllegalCommand: the causes of a word by their own conditions, the lowest first (R162, R163), and
its whole effect (R161). -/

namespace Sys2Proof

/-- The bits that every word of the row of `w`'s opcode has zero, all of them below the opcode (R72, R73). -/
def unusedBits (w : Word) : Word :=
  if opField w = 1#4 then assembleFields 0 0xF 0xFF 0xFF 0xFF
  else if opField w = 2#4 ∨ opField w = 6#4 then assembleFields 0 0xF 0 0xFF 0xFF
  else if opField w = 3#4 ∨ opField w = 7#4 then assembleFields 0 0xF 0 0 0
  else if opField w = 4#4 then assembleFields 0 0 0 0xFF 0xFF
  else 0#32

/-- The word's opcode is of a command with three shapes, and the instance has one channel a group (cause 3). -/
abbrev shapeFails (p : Params) (w : Word) : Prop := (opField w = 3#4 ∨ opField w = 5#4) ∧ p.channels = 1

/-- The word's opcode is of a command with a group, and the instance does not have that group (cause 4). -/
abbrev groupFails (p : Params) (w : Word) : Prop :=
  (opField w = 4#4 ∨ opField w = 5#4) ∧ p.groups ≤ (grpField w).toNat

/-- A mask below the opcode clears a word exactly if it clears each field. -/
theorem and_fields_eq_zero_iff (w : Word) (grp : GroupIndex) (a b c : Byte) :
    w &&& assembleFields 0 grp a b c = 0#32 ↔
      grpField w &&& grp = 0 ∧ aField w &&& a = 0 ∧ bField w &&& b = 0 ∧ cField w &&& c = 0 := by
  rw [show 0#32 = assembleFields 0 0 0 0 0 from rfl, masked_eq_iff]
  exact and_iff_right BitVec.and_zero

/-- INIT uses no field below the opcode. -/
theorem unused_iff_of_op1 {w : Word} (h : opField w = 1#4) :
    w &&& unusedBits w = 0#32 ↔ grpField w = 0 ∧ aField w = 0 ∧ bField w = 0 ∧ cField w = 0 := by
  simp only [unusedBits, h, if_true, and_fields_eq_zero_iff, and_mask_nibble, and_mask_byte]

/-- A command of one level uses field A. -/
theorem unused_iff_of_op2_or_op6 {w : Word} (h : opField w = 2#4 ∨ opField w = 6#4) :
    w &&& unusedBits w = 0#32 ↔ grpField w = 0 ∧ bField w = 0 ∧ cField w = 0 := by
  have h1 : opField w ≠ 1#4 := by rcases h with h | h <;> simp [h]
  simp only [unusedBits, if_neg h1, if_pos h, and_fields_eq_zero_iff, and_mask_nibble, and_mask_byte,
    and_mask_clear, true_and]

/-- A command of three levels uses every field but GRP. -/
theorem unused_iff_of_op3_or_op7 {w : Word} (h : opField w = 3#4 ∨ opField w = 7#4) :
    w &&& unusedBits w = 0#32 ↔ grpField w = 0 := by
  have h1 : opField w ≠ 1#4 := by rcases h with h | h <;> simp [h]
  have h26 : ¬(opField w = 2#4 ∨ opField w = 6#4) := by rcases h with h | h <;> simp [h]
  simp only [unusedBits, if_neg h1, if_neg h26, if_pos h, and_fields_eq_zero_iff, and_mask_nibble, and_mask_clear,
    and_true]

/-- SETGRP.GREY uses the fields GRP and A. -/
theorem unused_iff_of_op4 {w : Word} (h : opField w = 4#4) :
    w &&& unusedBits w = 0#32 ↔ bField w = 0 ∧ cField w = 0 := by
  have hmask : unusedBits w = assembleFields 0 0 0 0xFF 0xFF := by simp [unusedBits, h]
  simp only [hmask, and_fields_eq_zero_iff, and_mask_byte, and_mask_clear, true_and]

/-- Every opcode that is not reserved names one command of the word's fields: its pattern is rejected exactly for
the row's unused bits, and the command is illegal in an instance by shape and then by group (R72, R76). -/
theorem exists_row_of_not_reserved {w : Word} (hop : ¬(opField w = 0#4 ∨ 8 ≤ (opField w).toNat)) :
    ∃ i, (decodePattern w = if w &&& unusedBits w = 0#32 then .command i else .illegal .sbzNonzero) ∧
      ∀ p, illegality p i =
        if shapeFails p w then some .shapeMismatch else if groupFails p w then some .groupRange else none := by
  obtain h | h | h | h | h | h | h | h := opField_cases (opField w)
  · exact absurd h hop
  · refine ⟨.init, ?_, fun p => by simp [illegality, shapeFails, groupFails, h]⟩
    simp only [decodePattern_of_op1 h, unused_iff_of_op1 h]
  · refine ⟨.setallGrey (aField w), ?_, fun p => by simp [illegality, shapeFails, groupFails, h]⟩
    simp only [decodePattern_of_op2 h, unused_iff_of_op2_or_op6 (.inl h)]
  · refine ⟨.setallRgb (aField w) (bField w) (cField w), ?_, fun p => ?_⟩
    · simp only [decodePattern_of_op3 h, unused_iff_of_op3_or_op7 (.inl h)]
    · simp [illegality, shapeCause, shapeFails, groupFails, h]
  · refine ⟨.setgrpGrey (grpField w) (aField w), ?_, fun p => ?_⟩
    · simp only [decodePattern_of_op4 h, unused_iff_of_op4 h]
    · simp [illegality, groupCause, shapeFails, groupFails, h]
  · refine ⟨.setgrpRgb (grpField w) (aField w) (bField w) (cField w), ?_, fun p => ?_⟩
    · simp [decodePattern_of_op5 h, unusedBits, h]
    · by_cases hW : p.channels = 1 <;> simp [illegality, shapeCause, groupCause, shapeFails, groupFails, h, hW]
  · refine ⟨.correct (aField w), ?_, fun p => by simp [illegality, shapeFails, groupFails, h]⟩
    simp only [decodePattern_of_op6 h, unused_iff_of_op2_or_op6 (.inr h)]
  · refine ⟨.correctRgb (aField w) (bField w) (cField w), ?_, fun p => ?_⟩
    · simp only [decodePattern_of_op7 h, unused_iff_of_op3_or_op7 (.inr h)]
    · simp [illegality, shapeFails, groupFails, h]

/-- The answer to a command that four checks may reject, the lowest cause first (R163). -/
def checkedInOrder (reserved unused shape group : Prop) [Decidable reserved] [Decidable unused] [Decidable shape]
    [Decidable group] (i : Instr) : Decoded :=
  if reserved then .illegal .reservedOpcode
  else if unused then .illegal .sbzNonzero
  else if shape then .illegal .shapeMismatch
  else if group then .illegal .groupRange
  else .command i

/-- Each cause is answered exactly if its condition holds and none before it. -/
theorem checkedInOrder_eq_illegal {reserved unused shape group : Prop} [Decidable reserved] [Decidable unused]
    [Decidable shape] [Decidable group] {i : Instr} :
    (checkedInOrder reserved unused shape group i = .illegal .reservedOpcode ↔ reserved) ∧
    (checkedInOrder reserved unused shape group i = .illegal .sbzNonzero ↔ ¬reserved ∧ unused) ∧
    (checkedInOrder reserved unused shape group i = .illegal .shapeMismatch ↔ ¬reserved ∧ ¬unused ∧ shape) ∧
    (checkedInOrder reserved unused shape group i = .illegal .groupRange ↔
      ¬reserved ∧ ¬unused ∧ ¬shape ∧ group) := by
  unfold checkedInOrder
  split_ifs <;> simp [*]

/-- Decoding checks the four causes in the order of their codes (R80, R162, R163). -/
theorem decode_eq_checkedInOrder (p : Params) (w : Word) :
    ∃ i, decode p w =
      checkedInOrder (w &&& 0xF0000000#32 = 0#32 ∨ w &&& 0x80000000#32 = 0x80000000#32)
        (w &&& unusedBits w ≠ 0#32) (shapeFails p w) (groupFails p w) i := by
  by_cases hop : opField w = 0#4 ∨ 8 ≤ (opField w).toNat
  · refine ⟨.init, ?_⟩
    rw [decode_of_pattern_illegal (decodePattern_of_reserved hop), checkedInOrder,
      if_pos ((reserved_iff_masked w).1 hop)]
  · obtain ⟨i, hrow, hill⟩ := exists_row_of_not_reserved hop
    refine ⟨i, ?_⟩
    rw [decode_of_guarded hrow, hill, checkedInOrder, if_neg (mt (reserved_iff_masked w).2 hop), ite_not]
    split_ifs <;> rfl

/-- Settles O27: decoding is the four checks in order, each of which names its own condition. -/
theorem lowestCauseReported : Obligations.LowestCauseReported := by
  unfold Obligations.LowestCauseReported
  refine ⟨fun p w => ?causes, rfl, rfl, rfl, rfl⟩
  case causes =>
    obtain ⟨i, hd⟩ := decode_eq_checkedInOrder p w
    rw [hd]
    exact checkedInOrder_eq_illegal

end Sys2Proof

namespace Sys2Proof.Machine

/-- Settles O25: both ways to a rejection, by the word and by the command, answer the record update of R161. -/
theorem illegalCommandOnlyRecordsCause : Obligations.IllegalCommandOnlyRecordsCause := by
  unfold Obligations.IllegalCommandOnlyRecordsCause
  exact ⟨fun _ _ _ hp hh hd => acceptOffer_of_illegal hp hh hd, fun _ _ _ hw hp hl => exec_of_illegality hw hp hl⟩

end Sys2Proof.Machine
end

section
/-! The one stop of a legal instance: a token pending and a transport that accepts none any more (R160, R164). -/

namespace Sys2Proof.Machine

/-- Every command of a legal instance answers a next state: it is held, rejected or performed. -/
theorem exec_completes (i : Instr) {s : State} (hw : s.params.wf = true) : ∃ t, exec i s = .next t := by
  by_cases hp : s.pending = []
  · cases hl : illegality s.params i with
    | some c => exact ⟨_, exec_of_illegality hw hp hl⟩
    | none => exact ⟨_, exec_of_wf hw hp (illegality_eq_none.1 hl)⟩
  · exact ⟨s, exec_of_busy i hw (State.busy_eq_true.2 hp)⟩

/-- The command interface's turn never stops. -/
theorem acceptOffer_completes {s : State} (hw : s.params.wf = true) : ∃ t, acceptOffer s = .next t := by
  obtain ⟨-, h⟩ | ⟨-, h⟩ | ⟨_, _, -, -, -, h⟩ | ⟨_, _, -, -, -, -, h⟩ := acceptOffer_cases s hw
  all_goals exact ⟨_, h⟩

/-- The transport's turn never stops. -/
theorem transportTurn_completes (s : State) : ∃ t, transportTurn s = .next t := by
  obtain ⟨-, h⟩ | ⟨_, _, -, h⟩ := transportTurn_cases s
  all_goals exact ⟨_, h⟩

/-- A host read never stops, of an unwritten RESULT neither (R26, log 12). -/
theorem hostRead_completes (r : HostReg) (s : State) : ∃ t, hostRead r s = .next t := by
  cases r with
  | status => exact ⟨_, rfl⟩
  | result =>
    cases hr : s.result with
    | some v => exact ⟨_, hostRead_result_of_some hr⟩
    | none => exact ⟨_, hostRead_result_of_none hr⟩

/-- No outside event stops a legal instance. -/
theorem eventTurn_completes (e : Event) {s : State} (hw : s.params.wf = true) : ∃ t, eventTurn e s = .next t := by
  cases e with
  | present w => exact ⟨_, rfl⟩
  | withdraw => exact ⟨_, rfl⟩
  | accept => exact acceptOffer_completes hw
  | transportAccept => exact transportTurn_completes s
  | read r => exact hostRead_completes r s
  | reset => exact ⟨_, rfl⟩
  | deviceReset => exact ⟨_, rfl⟩

/-- With nothing on the agenda, a token pending and a transport that accepts none, the block is stuck (R164). -/
theorem step_of_dead_transport {s : State} (hw : s.params.wf = true) (ha : s.agenda = []) (hp : s.pending ≠ [])
    (hf : s.transportFair = false) : step s = .fault .transportNeverAccepts := by
  simp [step, hw, turn, ha, selfTurn, State.busy_eq_true.2 hp, hf]

/-- Settles O37: the first step of the run is stuck, so the run is. -/
theorem deadTransportIsStuck : Obligations.DeadTransportIsStuck := by
  unfold Obligations.DeadTransportIsStuck
  intro s k hw ha hp hf
  have hstep := step_of_dead_transport hw ha hp hf
  exact ⟨hstep, by rw [runFrom, hstep], State.busy_eq_true.2 hp⟩

/-- Settles O39: with an event on the agenda the step is the event's; with none it is the offer's or the transport's
turn, unless the transport is dead. -/
theorem onlyADeadTransportStops : Obligations.OnlyADeadTransportStops := by
  unfold Obligations.OnlyADeadTransportStops
  refine ⟨fun s hw => ?steps, fun i s hw => exec_completes i hw⟩
  case steps =>
    cases ha : s.agenda with
    | cons e rest => exact .inl (step_of_event hw ha ▸ eventTurn_completes e hw)
    | nil =>
      cases hp : s.pending with
      | nil => exact .inl (step_of_idle hw ha hp ▸ acceptOffer_completes hw)
      | cons t ts =>
        cases hf : s.transportFair with
        | true => exact .inl ⟨_, step_of_pending hw ha hf hp⟩
        | false => exact .inr ⟨rfl, List.cons_ne_nil t ts, rfl, step_of_dead_transport hw ha (by simp [hp]) hf⟩

end Sys2Proof.Machine
end

section
/-! The cut transaction: the observation of R182 read off the log itself, and what a reset makes of it (R180). -/

namespace Sys2Proof.Machine

/-- No END was accepted and no cut was marked. -/
def NothingCloses (log : List Observation) : Prop := .token .endTxn ∉ log ∧ .unterminated ∉ log

/-- The log holds a BEGIN that nothing after it closes (R182). -/
def HoldsOpenBegin (log : List Observation) : Prop :=
  ∃ before a after, log = before ++ .token (.beginTxn a) :: after ∧ NothingCloses after

theorem nothingCloses_cons {x : Observation} {xs : List Observation} :
    NothingCloses (x :: xs) ↔ (x ≠ .token .endTxn ∧ x ≠ .unterminated) ∧ NothingCloses xs := by
  simp only [NothingCloses, List.mem_cons, not_or, ne_eq, eq_comm (a := x)]
  tauto

/-- The open BEGIN is the first observation, or it stands in the rest. -/
theorem holdsOpenBegin_cons {x : Observation} {xs : List Observation} :
    HoldsOpenBegin (x :: xs) ↔ ((∃ a, x = .token (.beginTxn a)) ∧ NothingCloses xs) ∨ HoldsOpenBegin xs := by
  constructor
  · rintro ⟨before, a, after, hlog, hafter⟩
    cases before with
    | nil => obtain ⟨rfl, rfl⟩ := List.cons.inj hlog; exact .inl ⟨⟨a, rfl⟩, hafter⟩
    | cons y ys => exact .inr ⟨ys, a, after, (List.cons.inj hlog).2, hafter⟩
  · rintro (⟨⟨a, rfl⟩, hxs⟩ | ⟨before, a, after, rfl, hafter⟩)
    · exact ⟨[], a, xs, rfl, hxs⟩
    · exact ⟨x :: before, a, after, rfl, hafter⟩

/-- A transaction is open after an observation if that is a BEGIN, or if it was open and is not closed by it. -/
theorem openAfter_eq_true {isOpen : Bool} {x : Observation} :
    openAfter isOpen x = true ↔
      (∃ a, x = .token (.beginTxn a)) ∨ (isOpen = true ∧ x ≠ .token .endTxn ∧ x ≠ .unterminated) := by
  cases x with
  | token t => cases t <;> simp [openAfter]
  | unterminated | status v | result v | unwrittenResult v => simp [openAfter]

/-- A log leaves a transaction open by a BEGIN of its own, or by closing none that was open before it. -/
theorem foldl_openAfter_eq_true {isOpen : Bool} {log : List Observation} :
    log.foldl openAfter isOpen = true ↔ HoldsOpenBegin log ∨ (isOpen = true ∧ NothingCloses log) := by
  induction log generalizing isOpen with
  | nil => simp [HoldsOpenBegin, NothingCloses]
  | cons x xs ih =>
    rw [List.foldl_cons, ih, openAfter_eq_true, holdsOpenBegin_cons, nothingCloses_cons]
    tauto

/-- The model's flag is the condition of R182 on the log. -/
theorem State.transactionOpen_eq_true {s : State} : s.transactionOpen = true ↔ HoldsOpenBegin s.log := by
  simp [State.transactionOpen, foldl_openAfter_eq_true]

theorem State.resetBlock_of_open {s : State} (h : s.transactionOpen = true) :
    s.resetBlock = { s.clearRegisters with log := s.log ++ [.unterminated], device := Device.unknown } :=
  if_pos h

theorem State.resetBlock_of_closed {s : State} (h : s.transactionOpen ≠ true) : s.resetBlock = s.clearRegisters :=
  if_neg h

/-- A reset offers no token to the transport (R180, R182). -/
@[simp] theorem State.resetBlock_emitted (s : State) : s.resetBlock.emitted = s.emitted := by
  unfold State.emitted
  obtain h | h := s.resetBlock_log_cases
  · rw [h]
  · rw [h, tokensIn_concat_of_read rfl]

/-- Settles O31: the step is `State.resetBlock`, which asks for exactly the open BEGIN the statement speaks of. -/
theorem resetAbandonsTheCommand : Obligations.ResetAbandonsTheCommand := by
  unfold Obligations.ResetAbandonsTheCommand
  intro s rest hw ha
  have hopen : State.transactionOpen { s with agenda := rest } = true ↔ HoldsOpenBegin s.log :=
    State.transactionOpen_eq_true
  refine ⟨_, step_of_event hw ha, State.resetBlock_params _, State.resetBlock_pending _,
    State.resetBlock_err _, State.resetBlock_cause _, State.resetBlock_result _,
    State.busy_eq_false.2 (State.resetBlock_pending _), State.resetBlock_emitted _,
    fun hcut => ?cut, fun hwhole => ?whole⟩
  case cut =>
    rw [State.resetBlock_of_open (hopen.2 hcut)]
    exact ⟨rfl, Device.register_of_not_initDone rfl⟩
  case whole => rw [State.resetBlock_of_closed (mt hopen.1 hwhole), State.clearRegisters_log]

end Sys2Proof.Machine
end
